-- ==== Sys2Proof/Word.lean ====
section
/-! DEFINITION. The words that cross the ports of the block and the bytes of its messages. Bit 0 is the least significant bit
of every one of them (00_scope.md R7); `v[hi:lo]` of the spec is `v.extractLsb' lo (hi - lo + 1)`. -/

namespace Sys2Proof

/-- One byte of a message or of the host's stream. -/
abbrev Byte := BitVec 8

/-- A command word, `CMD_BITS` = 72 bits (30_encoding.md R31). -/
abbrev CmdWord := BitVec 72

/-- A response word, `RSP_BITS` = 72 bits (30_encoding.md R32). -/
abbrev RspWord := BitVec 72

/-- The operand half `arg` of a command word, and the `data` half of a response word (30_encoding.md R31, R32). -/
abbrev Lane := BitVec 64

/-- A packed MiniWaveFormat word, `MWF_WORD_BITS` = 32 bits (42_mwf.md R69, 30_encoding.md R39, R40). -/
abbrev MwfWord := BitVec 32

end Sys2Proof
end

