-- ==== Sys2Proof/Config.lean ====
section
/-! DEFINITION. What the block's implementation fixes (00_scope.md R5, R6) and the one thing the spec leaves open, `CODEC_NAME`.
The values of the CRC16B record stand in Machine/Crc.lean, beside the engine they instantiate. -/

namespace Sys2Proof

/-- The parameter record `P` of the generic CRC engine as the document writes it, six numbers and switches
(00_scope.md R5). Not every record has a meaning: see `ParamRecord.wellFormed` (R6). -/
structure ParamRecord where
  width  : Nat
  poly   : Nat
  init   : Nat
  refin  : Bool
  refout : Bool
  xorout : Nat
deriving DecidableEq, Repr

/-- A WELL-FORMED parameter record of width `w` (00_scope.md R6): the three values are below `2^w` because they are
`w`-bit words, and `WIDTH >= 1` is carried as a proof, so that an ill-formed record cannot be built. -/
structure CrcParams (w : Nat) where
  poly      : BitVec w
  init      : BitVec w
  refin     : Bool
  refout    : Bool
  xorout    : BitVec w
  width_pos : 1 ≤ w
deriving DecidableEq, Repr

/-- The four codec tags the document names (42_mwf.md R67, R70). -/
inductive CodecTag where
  | pcm | xma | adpcm | wma
deriving DecidableEq, Repr

/-- The tags in the order in which the document lists them, as a fixed bijection with 0 to 3; which NUMBER each tag carries
is `Config.codecName`. -/
def CodecTag.ofIndex : Fin 4 → CodecTag
  | 0 => .pcm
  | 1 => .xma
  | 2 => .adpcm
  | 3 => .wma

namespace Config

/-- Which position of the document's list each codec number takes: left OPEN by the spec (92_eei_decisions.md D19), so an
uninterpreted permutation about which nothing can be proved but that it is one. DESIGN CHOICE (log 5), safe. -/
opaque codecOrder : Equiv.Perm (Fin 4)

/-- `CODEC_NAME`, a bijection from the codec numbers 0 to 3 to the four tags (00_scope.md R5, 42_mwf.md R70). -/
def codecName (codec : Fin 4) : CodecTag := CodecTag.ofIndex (codecOrder codec)

/-- The tag of a codec number, if it is a known one: the document's "`codec` must map to a known tag" (42_mwf.md R70). Every
number of a 2-bit field is known. -/
def codecTag? (codec : Nat) : Option CodecTag :=
  if h : codec < 4 then some (codecName ⟨codec, h⟩) else none

/-- `REV_MAX`, the largest `num_bits` the REV command accepts (00_scope.md R5, 40_bitrev.md R49). -/
abbrev revMax : Nat := 32

end Config
end Sys2Proof
end

