-- ==== Sys2Proof/Syntax.lean ====
section
/-! DEFINITION. The seven commands (30_encoding.md R33), one constructor per row of spec/opcode_table.json, with the operands of
R34 at their own widths. -/

namespace Sys2Proof

/-- A command with its operands (30_encoding.md R33 to R36, R41). -/
inductive Instr where
  /-- `CRC.INIT` (41_crc.md R59). -/
  | crcInit
  /-- `CRC.BYTE d` (41_crc.md R60). -/
  | crcByte (d : Byte)
  /-- `CRC.READ` (41_crc.md R61). -/
  | crcRead
  /-- `CRC.SUM` (41_crc.md R62). -/
  | crcSum
  /-- `REV n, value` (40_bitrev.md R49). -/
  | rev (n : BitVec 6) (value : BitVec 32)
  /-- `MWF.DEC version, word`; `version` is read as two's complement (42_mwf.md R73, 30_encoding.md R36). -/
  | mwfDec (version : BitVec 32) (word : MwfWord)
  /-- `MWF.ENC` of the slots of an unpacked record `U` (42_mwf.md R77, 30_encoding.md R41). `ignored` is `U[57:56]`: no effect
  on the response or on `REM` (R34), kept so that every legal word has exactly one instruction (log 11). -/
  | mwfEnc (codec8 channels8 : BitVec 8) (rate24 : BitVec 24) (align8 bps8 : BitVec 8) (ignored : BitVec 2)
deriving DecidableEq, Repr

/-- The seven assigned opcodes by name (30_encoding.md R33). -/
inductive Opcode where
  | crcInit | crcByte | crcRead | crcSum | rev | mwfDec | mwfEnc
deriving DecidableEq, Repr

/-- The opcode of a command. -/
def Instr.opcode : Instr → Opcode
  | .crcInit => .crcInit
  | .crcByte _ => .crcByte
  | .crcRead => .crcRead
  | .crcSum => .crcSum
  | .rev _ _ => .rev
  | .mwfDec _ _ => .mwfDec
  | .mwfEnc _ _ _ _ _ _ => .mwfEnc

end Sys2Proof
end

