-- ==== Sys2Proof/WellFormed.lean ====
section
/-! DEFINITION. Which terms are well-formed: the commands that some legal word carries, and the parameter records the generic CRC
engine is stated for. -/

namespace Sys2Proof

/-- A command is well-formed when some legal command word carries it. The only operand whose field is wider than its legal
range is the count of `REV` (30_encoding.md R34, R43; 40_bitrev.md R49). -/
def Instr.wellFormed : Instr → Bool
  | .rev n _ => n.toNat ≤ Config.revMax
  | .crcInit => true
  | .crcByte _ => true
  | .crcRead => true
  | .crcSum => true
  | .mwfDec _ _ => true
  | .mwfEnc _ _ _ _ _ _ => true

/-- `WIDTH >= 1`, and `POLY`, `INIT` and `XOROUT` are each below `2^WIDTH` (00_scope.md R6). -/
def ParamRecord.wellFormed (P : ParamRecord) : Bool :=
  decide (1 ≤ P.width) && decide (P.poly < 2 ^ P.width) && decide (P.init < 2 ^ P.width) && decide (P.xorout < 2 ^ P.width)

/-- The well-formed record a record of numbers stands for, or nothing where the spec refuses it (00_scope.md R6; log 8). -/
def ParamRecord.params? (P : ParamRecord) : Option (CrcParams P.width) :=
  if h : P.wellFormed = true then
    some { poly := BitVec.ofNat P.width P.poly, init := BitVec.ofNat P.width P.init, refin := P.refin, refout := P.refout,
           xorout := BitVec.ofNat P.width P.xorout,
           width_pos := by
             simp only [ParamRecord.wellFormed, Bool.and_eq_true, decide_eq_true_eq] at h
             exact h.1.1.1 }
  else none

end Sys2Proof
end

