-- ==== Sys2Proof/Decode.lean ====
section
/-! DEFINITION. Decoding and encoding of command words (30_encoding.md sections 1 to 3 and 6). A word is one 72-bit transfer of the
command port (20_memory.md R27); it has no byte order of its own. -/

namespace Sys2Proof

/-- `cmd.op`, bits 71:64 (30_encoding.md R31). -/
def opOf (cmd : CmdWord) : BitVec 8 := cmd.extractLsb' 64 8

/-- `cmd.arg`, bits 63:0 (30_encoding.md R31). -/
def argOf (cmd : CmdWord) : Lane := cmd.extractLsb' 0 64

/-- The command word with opcode `op` and operands `arg` (30_encoding.md R31). -/
def cmdWord (op : BitVec 8) (arg : Lane) : CmdWord := op ++ arg

/-- The opcode numbers (30_encoding.md R33). -/
def Opcode.code : Opcode → BitVec 8
  | .crcInit => 0x01
  | .crcByte => 0x02
  | .crcRead => 0x03
  | .crcSum => 0x04
  | .rev => 0x08
  | .mwfDec => 0x10
  | .mwfEnc => 0x11

/-- The opcode a number is assigned to; every other number is unassigned (30_encoding.md R33, R38). -/
def opcodeOf (op : BitVec 8) : Option Opcode :=
  if op = 0x01 then some .crcInit
  else if op = 0x02 then some .crcByte
  else if op = 0x03 then some .crcRead
  else if op = 0x04 then some .crcSum
  else if op = 0x08 then some .rev
  else if op = 0x10 then some .mwfDec
  else if op = 0x11 then some .mwfEnc
  else none

/-- `MBZ(op)`, the must-be-zero bits of `arg` (30_encoding.md R34, R37, R43). -/
def mbzMask : Opcode → Lane
  | .crcInit => 0xFFFFFFFFFFFFFFFF
  | .crcByte => 0xFFFFFFFFFFFFFF00
  | .crcRead => 0xFFFFFFFFFFFFFFFF
  | .crcSum => 0xFFFFFFFFFFFFFFFF
  | .rev => 0xFFFFFFC000000000
  | .mwfDec => 0x0000000000000000
  | .mwfEnc => 0xFC00000000000000

/-- The command an opcode and its operands make: every operand a contiguous slice of `arg` (30_encoding.md R34, R35, R41). -/
def operandsOf (op : Opcode) (arg : Lane) : Instr :=
  match op with
  | .crcInit => .crcInit
  | .crcByte => .crcByte (arg.extractLsb' 0 8)
  | .crcRead => .crcRead
  | .crcSum => .crcSum
  | .rev => .rev (arg.extractLsb' 32 6) (arg.extractLsb' 0 32)
  | .mwfDec => .mwfDec (arg.extractLsb' 32 32) (arg.extractLsb' 0 32)
  | .mwfEnc =>
    .mwfEnc (arg.extractLsb' 0 8) (arg.extractLsb' 8 8) (arg.extractLsb' 16 24) (arg.extractLsb' 40 8)
      (arg.extractLsb' 48 8) (arg.extractLsb' 56 2)

/-- Why a word is no command, in the order of the decoder's checks (30_encoding.md R43; 60_exceptions.md R85, R91). -/
inductive DecodeRefusal where
  /-- `op` is not one of the seven assigned values (30_encoding.md R38). The block answers ILLEGAL: safe. -/
  | unassignedOpcode
  /-- A must-be-zero bit of `arg` is 1 (30_encoding.md R37). The block answers ILLEGAL: safe. -/
  | mustBeZeroBit
  /-- `REV` with `n > 32` (40_bitrev.md R49). The block answers ILLEGAL: safe. -/
  | revCount
deriving DecidableEq, Repr

/-- The decoder, total on all 2^72 words (30_encoding.md R43). -/
def decode (cmd : CmdWord) : Except DecodeRefusal Instr :=
  match opcodeOf (opOf cmd) with
  | none => .error .unassignedOpcode
  | some op =>
    if argOf cmd &&& mbzMask op ≠ 0 then .error .mustBeZeroBit
    else if (operandsOf op (argOf cmd)).wellFormed then .ok (operandsOf op (argOf cmd))
    else .error .revCount

/-- The operand lane of a command, its must-be-zero bits zero (30_encoding.md R34, R44). -/
def encodeArg : Instr → Lane
  | .crcInit => 0
  | .crcByte d => (0 : BitVec 56) ++ d
  | .crcRead => 0
  | .crcSum => 0
  | .rev n value => (0 : BitVec 26) ++ n ++ value
  | .mwfDec version word => version ++ word
  | .mwfEnc codec8 channels8 rate24 align8 bps8 ignored =>
    (0 : BitVec 6) ++ ignored ++ bps8 ++ align8 ++ rate24 ++ channels8 ++ codec8

/-- The command word of a command (30_encoding.md R44). -/
def encode (i : Instr) : CmdWord := cmdWord i.opcode.code (encodeArg i)

/-- One row of spec/opcode_table.json: `(cmd & mask) == match` says that the word passes the first two checks of the decoder for
that command (30_encoding.md R43). -/
structure TableRow where
  opcode : Opcode
  pattern : CmdWord
  mask : CmdWord
deriving DecidableEq, Repr

/-- spec/opcode_table.json, its `match` and `mask` columns. -/
def opcodeTable : List TableRow := [
  ⟨.crcInit, 0x010000000000000000, 0xFFFFFFFFFFFFFFFFFF⟩,
  ⟨.crcByte, 0x020000000000000000, 0xFFFFFFFFFFFFFFFF00⟩,
  ⟨.crcRead, 0x030000000000000000, 0xFFFFFFFFFFFFFFFFFF⟩,
  ⟨.crcSum, 0x040000000000000000, 0xFFFFFFFFFFFFFFFFFF⟩,
  ⟨.rev, 0x080000000000000000, 0xFFFFFFFFC000000000⟩,
  ⟨.mwfDec, 0x100000000000000000, 0xFF0000000000000000⟩,
  ⟨.mwfEnc, 0x110000000000000000, 0xFFFC00000000000000⟩]

/-- The word a table number of `nbits` bits stands for; there is no command longer than 72 bits (30_encoding.md R31, R43; log 15). -/
def tableWord? (nbits w : Nat) : Option CmdWord :=
  if w % 2 ^ nbits < 2 ^ 72 then some (BitVec.ofNat 72 (w % 2 ^ nbits)) else none

/-- The command the decoder reads from a word numbered as spec/opcode_table.json numbers its bits (log 15). -/
def decodeTableWord (nbits w : Nat) : Option Instr :=
  match tableWord? nbits w with
  | none => none
  | some cmd =>
    match decode cmd with
    | .ok i => some i
    | .error _ => none

end Sys2Proof
end

