-- ==== Sys2Proof/Machine/State.lean ====
section
/-! DEFINITION. The state of the block, the state of a run, and the reasons the model could stop.

The block's state is `Block`, the one register `REM` (10_state.md R10). `State` is that block with the two ends of its ports, held
beside it because the host's `step` takes no argument but the state (log 1). -/

namespace Sys2Proof.Machine

/-- What the environment can do to the block: present a command word, or reset it. Both stand in one total order
(20_memory.md R27, R28; 70_reset_and_hazards.md R98). -/
inductive PortEvent where
  /-- A command word presented to the command port. -/
  | command (cmd : CmdWord)
  /-- The reset input. -/
  | reset
deriving DecidableEq, Repr

/-- The complete architectural state of the block (10_state.md R10): the single field `REM`. -/
structure Block where
  /-- `REM`, the running CRC remainder (10_state.md R11). -/
  rem : BitVec 16
deriving DecidableEq, Repr

/-- The state of a run: the block, and the two ends of its ports, which are no state of the block (log 1). What a step does to the
block is `Block.react`, with the event as its argument. -/
structure State extends Block where
  /-- The model's own: the events the block has not accepted yet, the next one first (log 1). -/
  inputs : List PortEvent
  /-- The model's own: the response words emitted so far, the oldest first (log 1; 70_reset_and_hazards.md R109). -/
  responses : List RspWord
deriving DecidableEq, Repr

/-- The reasons the machine could stop with a fault: NONE. Every command completes or is answered with a fault code, and no third
outcome exists (60_exceptions.md R82; log 10). A fault CODE is a response, and the machine goes on: see `FaultCode`. -/
inductive Fault where
deriving DecidableEq, Repr

/-- The reasons the model could refuse. No command of the block is refused: every word has its response (60_exceptions.md R82). -/
inductive Refusal where
  /-- Raised by an arm of `exec` whose instruction has no meaning yet. No arm raises it: safe. -/
  | notModelled (mnemonic : String)
deriving DecidableEq, Repr

/-- Right after reset: `REM` = `INIT` = 0xFFFF (10_state.md R11, 70_reset_and_hazards.md R99); nothing presented and nothing
emitted (log 1). -/
def State.reset : State := { rem := 0xFFFF, inputs := [], responses := [] }

end Sys2Proof.Machine
end

