-- ==== Sys2Proof/Machine/Flags.lean ====
section
/-! DEFINITION. The block has no status flags, condition codes or sticky bits (10_state.md R13). What stands in their place is the
status of a response word, which carries the outcome of one command and is remembered nowhere (30_encoding.md R32). -/

namespace Sys2Proof.Machine

/-- The fault codes (60_exceptions.md R84). These are responses: no code stops the machine. -/
inductive FaultCode where
  /-- The word is no legal command (60_exceptions.md R85). Safe. -/
  | illegal
  /-- `MWF.DEC` with `version <= 0` (60_exceptions.md R86). Safe. -/
  | fveVersion
  /-- An unknown codec tag; unreachable, the check is carried (60_exceptions.md R87). Safe. -/
  | fveCodec
  /-- A raw bits-per-sample value other than 0 or 1; unreachable, the check is carried (60_exceptions.md R88). Safe. -/
  | fveBps
  /-- `MWF.ENC` of a field that does not fit (60_exceptions.md R89). Safe. -/
  | fveRange
  /-- Reserved, never raised (60_exceptions.md R90). Safe. -/
  | heuristic
deriving DecidableEq, Repr

/-- The status of a response: `OK` or a fault code (60_exceptions.md R82, R84). -/
inductive Status where
  | ok
  | fault (code : FaultCode)
deriving DecidableEq, Repr

/-- The document's kinds of error; `interface` is the spec's own (60_exceptions.md R84). -/
inductive FaultKind where
  | interface
  | formatValidationError
  | heuristicSuspicion
deriving DecidableEq, Repr

/-- The kind column of the status table (60_exceptions.md R84). -/
def FaultCode.kind : FaultCode → FaultKind
  | .illegal => .interface
  | .fveVersion => .formatValidationError
  | .fveCodec => .formatValidationError
  | .fveBps => .formatValidationError
  | .fveRange => .formatValidationError
  | .heuristic => .heuristicSuspicion

/-- The number of a status (60_exceptions.md R84). -/
def Status.number : Status → BitVec 8
  | .ok => 0x00
  | .fault .illegal => 0x01
  | .fault .fveVersion => 0x10
  | .fault .fveCodec => 0x11
  | .fault .fveBps => 0x12
  | .fault .fveRange => 0x13
  | .fault .heuristic => 0x20

/-- The response word: `status` in bits 71:64, `data` in bits 63:0 (30_encoding.md R32). -/
def rspWord (status : Status) (data : Lane) : RspWord := status.number ++ data

/-- `rsp.status` (30_encoding.md R32). -/
def statusOf (rsp : RspWord) : BitVec 8 := rsp.extractLsb' 64 8

/-- `rsp.data` (30_encoding.md R32). -/
def dataOf (rsp : RspWord) : Lane := rsp.extractLsb' 0 64

end Sys2Proof.Machine
end

