-- ==== Sys2Proof/Machine/Ops.lean ====
section
/-! DEFINITION. The named operations over the register and the ports: writing `REM`, emitting a response, raising a fault (the
block's whole "trap entry", 60_exceptions.md R94), accepting an input, and reset. The block has no memory (10_state.md R16), and
no return from a fault, since the next command is accepted as always (60_exceptions.md R95). -/

namespace Sys2Proof.Machine

/-- `REM <- v` (00_scope.md R9). -/
def writeRem (v : BitVec 16) (s : State) : State := { s with rem := v }

/-- The state after the block has emitted the response word `rsp`: the command is wholly done (20_memory.md R27). -/
def emit (rsp : RspWord) (s : State) : State := { s with responses := s.responses ++ [rsp] }

/-- `respond(OK, data)`: one response word, and the command is complete (00_scope.md R9, 30_encoding.md R32). -/
def respond (data : Lane) (s : State) : Host.Outcome State Fault Refusal :=
  .next (emit (rspWord .ok data) s)

/-- `raise <Fault>`, the block's trap entry: `respond(code of <Fault>, 0)` with no write of `REM`, and the block ready for the
next command (00_scope.md R9; 60_exceptions.md R83, R94). -/
def raise (code : FaultCode) (s : State) : Host.Outcome State Fault Refusal :=
  .next (emit (rspWord (.fault code) 0) s)

/-- A command whose pseudocode either raises or ends in `respond(OK, data)`. -/
def answer (result : Except FaultCode Lane) (s : State) : Host.Outcome State Fault Refusal :=
  match result with
  | .ok data => respond data s
  | .error code => raise code s

/-- The next event and the state that has accepted it, or nothing when none is presented (20_memory.md R27, R28). -/
def State.accept (s : State) : Option (PortEvent × State) :=
  match s.inputs with
  | [] => none
  | e :: rest => some (e, { s with inputs := rest })

/-- The effect of the reset input: `REM <- INIT`, no response word (70_reset_and_hazards.md R98, R99). -/
def resetBlock (s : State) : State := writeRem 0xFFFF s

/-- The environment presents further events, after those already presented (20_memory.md R28). -/
def State.present (events : List PortEvent) (s : State) : State := { s with inputs := s.inputs ++ events }

/-- The environment puts one command word before all others: what `State.withFetchWord` is made of (log 2). -/
def State.presentFirst (cmd : CmdWord) (s : State) : State := { s with inputs := .command cmd :: s.inputs }

end Sys2Proof.Machine
end

