-- ==== Sys2Proof/Machine/BitRev.lean ====
section
/-! DEFINITION. Bit reversal (40_bitrev.md): the document's `reverse_bits` and the command `REV`. -/

namespace Sys2Proof.Machine

/-- The loop of `reverse_bits(value, n)` after its first `i` rounds (40_bitrev.md R47). -/
def reverseLoop (value n : Nat) : Nat → Nat
  | 0 => 0
  | i + 1 =>
    let r := reverseLoop value n i
    if value.testBit i then r ||| (1 <<< (n - 1 - i)) else r

/-- `reverse_bits(value, num_bits)` on naturals: bit `n - 1 - i` of the result is bit `i` of `value` (40_bitrev.md R47). -/
def reverseBits (value n : Nat) : Nat := reverseLoop value n n

/-- `reverse_bits` of a word at its own width, the form the CRC unit uses (40_bitrev.md R48 (f)). -/
def reverseWord {w : Nat} (v : BitVec w) : BitVec w := BitVec.ofNat w (reverseBits v.toNat w)

/-- `REV n, value` (40_bitrev.md R49). The decoder refuses `n > 32` before this meaning is reached; the check of the rule's own
pseudocode stands here too (log 11). -/
def execRev (n : BitVec 6) (value : BitVec 32) (s : State) : Host.Outcome State Fault Refusal :=
  if Config.revMax < n.toNat then raise .illegal s
  else respond (BitVec.ofNat 64 (reverseBits value.toNat n.toNat)) s

end Sys2Proof.Machine
end

