-- ==== Sys2Proof/Machine/Operands.lean ====
section
/-! DEFINITION. The forms in which operands and results cross the ports: byte sequences of integers, the signed container version,
and the unpacked record `U`. -/

namespace Sys2Proof.Machine

/-- `le_bytes(v, n)`: the `n` bytes of `v`, least significant first; byte `k` is `v[8k+7:8k]` (20_memory.md R19). -/
def leBytes (v : Nat) : Nat → List Byte
  | 0 => []
  | n + 1 => BitVec.ofNat 8 v :: leBytes (v / 256) n

/-- `from_le_bytes`: the sum of `b_k * 2^(8k)` (20_memory.md R19). -/
def fromLeBytes : List Byte → Nat
  | [] => 0
  | b :: bs => b.toNat + 256 * fromLeBytes bs

/-- The four bytes of the host's stream a packed word stands for, at increasing offsets (20_memory.md R20). -/
def streamBytes (word : MwfWord) : List Byte := leBytes word.toNat 4

/-- The `word` operand the host forms from stream bytes (20_memory.md R20; 70_reset_and_hazards.md R104). -/
def wordOfStream (bytes : List Byte) : MwfWord := BitVec.ofNat 32 (fromLeBytes bytes)

/-- `signed(arg[63:32])`, the container version (30_encoding.md R36). -/
def signedVersion (version : BitVec 32) : Int := version.toInt

/-- The unpacked record `U`, a WaveFormat in byte-aligned slots (30_encoding.md R41). -/
structure UnpackedRecord where
  codec8    : BitVec 8
  channels8 : BitVec 8
  rate24    : BitVec 24
  align8    : BitVec 8
  bps8      : BitVec 8
  bpsRaw    : BitVec 1
  bpsValid  : BitVec 1
deriving DecidableEq, Repr

/-- `U` as the 64 bits of a response lane; bits 63:58 are zero (30_encoding.md R41). -/
def unpackedBits (u : UnpackedRecord) : Lane :=
  (0 : BitVec 6) ++ u.bpsValid ++ u.bpsRaw ++ u.bps8 ++ u.align8 ++ u.rate24 ++ u.channels8 ++ u.codec8

end Sys2Proof.Machine
end

