-- ==== Sys2Proof/Machine/Crc.lean ====
section
/-! DEFINITION. The CRC unit (41_crc.md): the generic engine over a well-formed parameter record, its instance CRC16B, the
checksum, and the four commands. -/

namespace Sys2Proof.Machine

/-- `crc_bit(P, rem, bit)`: one bit step (41_crc.md R51; the reading of "that flipped top-bit" is R56). -/
def crcBit {w : Nat} (P : CrcParams w) (rem : BitVec w) (bit : Bool) : BitVec w :=
  let topMask : BitVec w := 1#w <<< (w - 1)
  let top := rem &&& topMask
  let shifted := rem <<< 1
  let flipped := if bit then top ^^^ topMask else top
  if flipped ≠ 0#w then shifted ^^^ P.poly else shifted

/-- `crc_byte(P, rem, byte)`: eight bit steps, most significant bit of the possibly reversed byte first (41_crc.md R52). -/
def crcByte {w : Nat} (P : CrcParams w) (rem : BitVec w) (byte : Byte) : BitVec w :=
  let b := if P.refin then reverseWord byte else byte
  [7, 6, 5, 4, 3, 2, 1, 0].foldl (fun r i => crcBit P r (b.getLsbD i)) rem

/-- `crc_update(P, rem, data)`: the left fold of `crc_byte` (41_crc.md R53). -/
def crcUpdate {w : Nat} (P : CrcParams w) (rem : BitVec w) (data : List Byte) : BitVec w :=
  data.foldl (crcByte P) rem

/-- `crc_finish(P, rem)`: the reversal first, the XOR second (41_crc.md R54). -/
def crcFinish {w : Nat} (P : CrcParams w) (rem : BitVec w) : BitVec w :=
  (if P.refout then reverseWord rem else rem) ^^^ P.xorout

/-- `crc(P, data)` (41_crc.md R55). -/
def crc {w : Nat} (P : CrcParams w) (data : List Byte) : BitVec w :=
  crcFinish P (crcUpdate P P.init data)

/-- The document's `crc` on a record of numbers; nothing on a record the spec refuses (00_scope.md R6; 41_crc.md R55; log 8). -/
def crcOfRecord (P : ParamRecord) (data : List Byte) : Option Nat :=
  match P.params? with
  | some p => some (crc p data).toNat
  | none => none

/-- The CRC16B record as the document gives it (00_scope.md R5, 41_crc.md R57; the literals are unaudited, log 13). -/
def crc16bRecord : ParamRecord :=
  { width := 16, poly := 0x1021, init := 0xFFFF, refin := true, refout := true, xorout := 0xFFFF }

/-- The block's one instance of the engine, CRC16B; no command changes it (41_crc.md R57, 10_state.md R14). -/
def crc16b : CrcParams 16 :=
  { poly := 0x1021, init := 0xFFFF, refin := true, refout := true, xorout := 0xFFFF, width_pos := by decide }

/-- `crc16b(data)`, the CRC of a whole message (41_crc.md R57). -/
def crc16bOf (data : List Byte) : BitVec 16 := crc crc16b data

/-- `soundbank_checksum(data)`: the CRC as two bytes, least significant first (41_crc.md R58, 20_memory.md R21). -/
def soundbankChecksum (data : List Byte) : List Byte := leBytes (crc16bOf data).toNat 2

/-- The CRC of the bytes absorbed so far, computed from `REM` without changing it (41_crc.md R61, R62). -/
def remCrc (s : State) : BitVec 16 := crcFinish crc16b s.rem

/-- `CRC.INIT` (41_crc.md R59). -/
def execCrcInit (s : State) : Host.Outcome State Fault Refusal :=
  respond 0 (writeRem crc16b.init s)

/-- `CRC.BYTE d` (41_crc.md R60). -/
def execCrcByte (d : Byte) (s : State) : Host.Outcome State Fault Refusal :=
  respond 0 (writeRem (crcByte crc16b s.rem d) s)

/-- `CRC.READ` (41_crc.md R61). -/
def execCrcRead (s : State) : Host.Outcome State Fault Refusal :=
  respond ((remCrc s).setWidth 64) s

/-- `CRC.SUM`: the two bytes of `le_bytes(c, 2)`, the first in `data[7:0]`, the second in `data[15:8]` (41_crc.md R62,
20_memory.md R21). -/
def execCrcSum (s : State) : Host.Outcome State Fault Refusal :=
  respond (BitVec.ofNat 64 (fromLeBytes (leBytes (remCrc s).toNat 2))) s

end Sys2Proof.Machine
end

