-- ==== Sys2Proof/Machine/Mwf.lean ====
section
/-! DEFINITION. The MiniWaveFormat unit (42_mwf.md): the decoded record, decoding under two layouts, encoding in the V2 layout, and
the commands `MWF.DEC` and `MWF.ENC`. -/

namespace Sys2Proof.Machine

/-- The decoded bits per sample, 8 or 16 (42_mwf.md R67, R71). -/
inductive SampleBits where
  | eight
  | sixteen
deriving DecidableEq, Repr

/-- A decoded WaveFormat (42_mwf.md R67); `bitsPerSample` is absent after a V1 decode. -/
structure WaveFormat where
  codec          : BitVec 2
  channels       : BitVec 3
  sampleRate     : BitVec 18
  blockAlignment : BitVec 8
  bitsPerSample  : Option SampleBits
deriving DecidableEq, Repr

/-- The two layouts of the packed word (30_encoding.md R39, R40). -/
inductive Layout where
  | v1
  | v2
deriving DecidableEq, Repr

/-- The fields of a packed word as extracted, `bps_raw` not interpreted (42_mwf.md R69). -/
structure MwfFields where
  codec     : BitVec 2
  channels  : BitVec 3
  rate      : BitVec 18
  alignment : BitVec 8
  bpsRaw    : BitVec 1
deriving DecidableEq, Repr

/-- `layout(version)`, a signed comparison (42_mwf.md R68). -/
def layoutOf (version : BitVec 32) : Except FaultCode Layout :=
  if signedVersion version = 1 then .ok .v1
  else if 2 ≤ signedVersion version then .ok .v2
  else .error .fveVersion

/-- `fields(L, word)`: each field by right shift and mask (42_mwf.md R69; 30_encoding.md R39, R40). V1 keeps `bps_raw` at bit 30
(90_conflicts.md C1, log 6), and its 1-bit codec is zero-extended. -/
def fieldsOf (L : Layout) (word : MwfWord) : MwfFields :=
  match L with
  | .v1 =>
    { codec := (word.extractLsb' 0 1).setWidth 2, channels := word.extractLsb' 1 3, rate := word.extractLsb' 4 18,
      alignment := word.extractLsb' 22 8, bpsRaw := word.extractLsb' 30 1 }
  | .v2 =>
    { codec := word.extractLsb' 0 2, channels := word.extractLsb' 2 3, rate := word.extractLsb' 5 18,
      alignment := word.extractLsb' 23 8, bpsRaw := word.extractLsb' 31 1 }

/-- The codec check: `FVE_CODEC` for an unknown tag, which a 2-bit field cannot hold (42_mwf.md R70; log 10). -/
def checkCodec (codec : BitVec 2) : Except FaultCode (BitVec 2) :=
  match Config.codecTag? codec.toNat with
  | some _ => .ok codec
  | none => .error .fveCodec

/-- `interpret(L, bps_raw)`: absent under V1; 8 or 16 under V2, and `FVE_BPS` for another raw value, which a 1-bit field cannot
hold (42_mwf.md R71; log 10). -/
def interpretBps (L : Layout) (bpsRaw : BitVec 1) : Except FaultCode (Option SampleBits) :=
  match L with
  | .v1 => .ok none
  | .v2 =>
    if bpsRaw.toNat = 0 then .ok (some .eight)
    else if bpsRaw.toNat = 1 then .ok (some .sixteen)
    else .error .fveBps

/-- `mwf_decode(version, word)`: the version check, then the codec check, then the bits per sample (42_mwf.md R72). -/
def mwfDecode (version : BitVec 32) (word : MwfWord) : Except FaultCode (WaveFormat × BitVec 1) :=
  match layoutOf version with
  | .error code => .error code
  | .ok L =>
    let f := fieldsOf L word
    match checkCodec f.codec with
    | .error code => .error code
    | .ok codec =>
      match interpretBps L f.bpsRaw with
      | .error code => .error code
      | .ok bps => .ok (⟨codec, f.channels, f.rate, f.alignment, bps⟩, f.bpsRaw)

/-- The number a bits-per-sample slot holds, 0 when absent (42_mwf.md R67, R73). -/
def bpsSlot : Option SampleBits → BitVec 8
  | none => 0
  | some .eight => 8
  | some .sixteen => 16

/-- `bps_valid` (42_mwf.md R73). -/
def bpsPresent : Option SampleBits → BitVec 1
  | none => 0
  | some _ => 1

/-- The unpacked record of a decoded WaveFormat (42_mwf.md R67, R73). -/
def unpackedOf (wf : WaveFormat) (bpsRaw : BitVec 1) : UnpackedRecord :=
  { codec8 := wf.codec.setWidth 8, channels8 := wf.channels.setWidth 8, rate24 := wf.sampleRate.setWidth 24,
    align8 := wf.blockAlignment, bps8 := bpsSlot wf.bitsPerSample, bpsRaw := bpsRaw, bpsValid := bpsPresent wf.bitsPerSample }

/-- `range_ok(U)` (42_mwf.md R76). `align8` is always in range. -/
def rangeOk (codec8 channels8 : BitVec 8) (rate24 : BitVec 24) (bps8 : BitVec 8) : Bool :=
  decide (codec8.toNat ≤ 3) && decide (channels8.toNat ≤ 7) && decide (rate24.toNat ≤ 262143)
    && (decide (bps8.toNat = 8) || decide (bps8.toNat = 16))

/-- The WaveFormat a host's slots hold, refused with `FVE_RANGE` where a field does not fit (42_mwf.md R76, R77). -/
def waveFormatOf (codec8 channels8 : BitVec 8) (rate24 : BitVec 24) (align8 bps8 : BitVec 8) : Except FaultCode WaveFormat :=
  if rangeOk codec8 channels8 rate24 bps8 then
    .ok { codec := codec8.setWidth 2, channels := channels8.setWidth 3, sampleRate := rate24.setWidth 18,
          blockAlignment := align8, bitsPerSample := some (if bps8.toNat = 8 then .eight else .sixteen) }
  else .error .fveRange

/-- The raw bit the encoder stores: 8 as 0, 16 as 1 (42_mwf.md R75). -/
def rawBit : SampleBits → BitVec 1
  | .eight => 0
  | .sixteen => 1

/-- `mwf_encode(wf)`: left shift and OR in the V2 positions (42_mwf.md R74). A record without bits per sample, as a V1 decode
leaves it, has no encoding and is refused as its port form is (R80 (b); log 11). -/
def mwfEncode (wf : WaveFormat) : Except FaultCode MwfWord :=
  match wf.bitsPerSample with
  | none => .error .fveRange
  | some bps =>
    .ok (wf.codec.setWidth 32 ||| wf.channels.setWidth 32 <<< 2 ||| wf.sampleRate.setWidth 32 <<< 5
      ||| wf.blockAlignment.setWidth 32 <<< 23 ||| (rawBit bps).setWidth 32 <<< 31)

/-- The result of `MWF.DEC`: the lane of the unpacked record (42_mwf.md R73). -/
def decResult (version : BitVec 32) (word : MwfWord) : Except FaultCode Lane :=
  match mwfDecode version word with
  | .ok (wf, bpsRaw) => .ok (unpackedBits (unpackedOf wf bpsRaw))
  | .error code => .error code

/-- The result of `MWF.ENC`: the packed word, zero-extended (42_mwf.md R77). -/
def encResult (codec8 channels8 : BitVec 8) (rate24 : BitVec 24) (align8 bps8 : BitVec 8) : Except FaultCode Lane :=
  match waveFormatOf codec8 channels8 rate24 align8 bps8 with
  | .error code => .error code
  | .ok wf =>
    match mwfEncode wf with
    | .error code => .error code
    | .ok word => .ok (word.setWidth 64)

/-- `MWF.DEC version, word` (42_mwf.md R73). -/
def execMwfDec (version : BitVec 32) (word : MwfWord) (s : State) : Host.Outcome State Fault Refusal :=
  answer (decResult version word) s

/-- `MWF.ENC` of the slots of `U`; `U[63:58]` is the decoder's to refuse, `U[57:56]` is ignored (42_mwf.md R77). -/
def execMwfEnc (codec8 channels8 : BitVec 8) (rate24 : BitVec 24) (align8 bps8 : BitVec 8) (s : State) :
    Host.Outcome State Fault Refusal :=
  answer (encResult codec8 channels8 rate24 align8 bps8) s

end Sys2Proof.Machine
end

