-- ==== Sys2Proof/Machine/Dispatch.lean ====
section
/-! DEFINITION. The meaning of every command, one arm per constructor of `Instr`, each a call of a definition of its own. -/

namespace Sys2Proof.Machine

def exec (i : Instr) (s : State) : Host.Outcome State Fault Refusal :=
  match i with
  | .crcInit => Sys2Proof.Machine.execCrcInit s
  | .crcByte d => Sys2Proof.Machine.execCrcByte d s
  | .crcRead => Sys2Proof.Machine.execCrcRead s
  | .crcSum => Sys2Proof.Machine.execCrcSum s
  | .rev n value => Sys2Proof.Machine.execRev n value s
  | .mwfDec version word => Sys2Proof.Machine.execMwfDec version word s
  | .mwfEnc codec8 channels8 rate24 align8 bps8 _ => Sys2Proof.Machine.execMwfEnc codec8 channels8 rate24 align8 bps8 s

end Sys2Proof.Machine
end

