-- ==== Sys2Proof/Machine/Step.lean ====
section
/-! DEFINITION. One step of the block: it accepts the next event and takes it to its end (20_memory.md R25, R27, R28). -/

namespace Sys2Proof.Machine

/-- One step. With nothing presented the block idles with `REM` held (60_exceptions.md R97; log 9). A reset event loads `REM` and
emits nothing (70_reset_and_hazards.md R98, R99). A command word is decoded; a legal command has its effect and its one response, a
word that is no command is answered with ILLEGAL and changes nothing (60_exceptions.md R85). -/
def step (s : State) : Host.Outcome State Fault Refusal :=
  match s.accept with
  | none => .next s
  | some (.reset, accepted) => .next (resetBlock accepted)
  | some (.command cmd, accepted) =>
    match decode cmd with
    | .ok i => exec i accepted
    | .error _ => raise .illegal accepted

/-- The state in which the table's word is the next command the block accepts; nothing else differs (log 2, log 15). A number that
is no 72-bit word leaves the state as it is: nothing can be presented. -/
def State.withFetchWord (s : State) (nbits w : Nat) : State :=
  match tableWord? nbits w with
  | some cmd => s.presentFirst cmd
  | none => s

end Sys2Proof.Machine
end

