-- ==== Sys2Proof/Machine/Assembler.lean ====
section
/-! DEFINITION. The assembler of the spec (30_encoding.md R45, R46): from a line of text to command words, so that a program of
95_test_vectors.md can be written down. The block itself sees the words only. What R45 leaves open about the text (blanks,
lines without a command, how a negative number is written, the form of a string, mixed case) is log 12. -/

namespace Sys2Proof.Machine

/-- One line of assembly (30_encoding.md R45, R46), its operands as written. -/
inductive AsmLine where
  | crcInit
  | crcByte (d : Nat)
  | crcRead
  | crcSum
  | rev (n value : Nat)
  | mwfDec (version : Int) (word : Nat)
  | mwfEnc (codec channels rate alignment bps : Nat)
  | rawWord (w : Nat)
  | crcMsg (bytes : List Nat)
  | crc16b (bytes : List Nat)
  | checksum (bytes : List Nat)
  | crcStr (text : List Nat)
  | mwfPack (codec channels rate alignment bps : Nat)
deriving DecidableEq, Repr

/-- The word of `crc.byte d`, `0 <= d <= 255` (30_encoding.md R45). -/
def asmByte (d : Nat) : Option CmdWord :=
  if d ≤ 255 then some (encode (.crcByte (BitVec.ofNat 8 d))) else none

/-- The words of `crc.byte` of each number (30_encoding.md R46). -/
def asmBytes : List Nat → Option (List CmdWord)
  | [] => some []
  | d :: ds =>
    match asmByte d, asmBytes ds with
    | some w, some ws => some (w :: ws)
    | _, _ => none

/-- The word of `mwf.enc`: each operand fits its slot, `U[63:56]` = 0 (30_encoding.md R45). -/
def asmEnc (codec channels rate alignment bps : Nat) : Option CmdWord :=
  if codec < 2 ^ 8 ∧ channels < 2 ^ 8 ∧ rate < 2 ^ 24 ∧ alignment < 2 ^ 8 ∧ bps < 2 ^ 8 then
    some (encode (.mwfEnc (BitVec.ofNat 8 codec) (BitVec.ofNat 8 channels) (BitVec.ofNat 24 rate) (BitVec.ofNat 8 alignment)
      (BitVec.ofNat 8 bps) 0))
  else none

/-- `crc.msg` (30_encoding.md R46): `crc.init`, then the bytes, then the words `tail`. -/
def asmMessage (bytes : List Nat) (tail : List CmdWord) : Option (List CmdWord) :=
  match asmBytes bytes with
  | some ws => some (encode .crcInit :: (ws ++ tail))
  | none => none

/-- The command words of a line, or nothing where an operand is out of the range R45 gives it (30_encoding.md R45, R46). -/
def assemble : AsmLine → Option (List CmdWord)
  | .crcInit => some [encode .crcInit]
  | .crcByte d => (asmByte d).map fun w => [w]
  | .crcRead => some [encode .crcRead]
  | .crcSum => some [encode .crcSum]
  | .rev n value =>
    if n ≤ 63 ∧ value < 2 ^ 32 then some [encode (.rev (BitVec.ofNat 6 n) (BitVec.ofNat 32 value))] else none
  | .mwfDec version word =>
    if -2 ^ 31 ≤ version ∧ version < 2 ^ 31 ∧ word < 2 ^ 32 then
      some [encode (.mwfDec (BitVec.ofInt 32 version) (BitVec.ofNat 32 word))]
    else none
  | .mwfEnc codec channels rate alignment bps => (asmEnc codec channels rate alignment bps).map fun w => [w]
  | .rawWord w => if w < 2 ^ 72 then some [BitVec.ofNat 72 w] else none
  | .crcMsg bytes => asmMessage bytes []
  | .crc16b bytes => asmMessage bytes [encode .crcRead]
  | .checksum bytes => asmMessage bytes [encode .crcSum]
  | .crcStr text => if text.all (· < 128) then asmBytes text else none
  | .mwfPack codec channels rate alignment bps => (asmEnc codec channels rate alignment bps).map fun w => [w]

/-- A blank of a line (log 12). -/
def isBlank (c : Char) : Bool := c == ' ' || c == '\t' || c == '\r'

/-- Text without the blanks at its two ends (log 12). -/
def trimBlanks (cs : List Char) : List Char := ((cs.dropWhile isBlank).reverse.dropWhile isBlank).reverse

/-- Text cut at every `sep`; the pieces are never none. -/
def splitAt (sep : Char) : List Char → List (List Char)
  | [] => [[]]
  | c :: cs =>
    if c == sep then [] :: splitAt sep cs
    else
      match splitAt sep cs with
      | [] => [[c]]
      | piece :: pieces => (c :: piece) :: pieces

/-- The value of a digit in a base. -/
def digitValue (base : Nat) (c : Char) : Option Nat :=
  let v := if c.isDigit then c.toNat - 48
    else if 'a' ≤ c ∧ c ≤ 'f' then c.toNat - 87
    else if 'A' ≤ c ∧ c ≤ 'F' then c.toNat - 55
    else base
  if v < base then some v else none

/-- The digits after the value `acc` of those before them. -/
def digitsFrom (base : Nat) (acc : Nat) : List Char → Option Nat
  | [] => some acc
  | c :: cs =>
    match digitValue base c with
    | some d => digitsFrom base (acc * base + d) cs
    | none => none

/-- A digit sequence, at least one digit long. -/
def digits (base : Nat) (cs : List Char) : Option Nat := if cs.isEmpty then none else digitsFrom base 0 cs

/-- A number: decimal, hexadecimal with `0x`, or binary with `0b` (30_encoding.md R45). -/
def parseNat : List Char → Option Nat
  | '0' :: 'x' :: cs => digits 16 cs
  | '0' :: 'b' :: cs => digits 2 cs
  | cs => digits 10 cs

/-- A container version (30_encoding.md R45 gives its range): a number, or a minus sign directly before a number in any of the three
forms. R45 does not say how a negative number is written: DESIGN CHOICE (log 12). -/
def parseInt : List Char → Option Int
  | '-' :: cs => (parseNat cs).map fun n => -(n : Int)
  | cs => (parseNat cs).map fun n => (n : Int)

/-- Numbers of a list of operands. -/
def parseNats : List (List Char) → Option (List Nat)
  | [] => some []
  | p :: ps =>
    match parseNat (trimBlanks p), parseNats ps with
    | some n, some ns => some (n :: ns)
    | _, _ => none

/-- Text before the comment that `;` starts (30_encoding.md R45). -/
def uncomment (cs : List Char) : List Char := cs.takeWhile (· != ';')

/-- The operands of a line, separated by commas; no text is no operand (30_encoding.md R45). -/
def operandTexts (cs : List Char) : List (List Char) :=
  let body := trimBlanks (uncomment cs)
  if body.isEmpty then [] else splitAt ',' body

/-- The operand of `crc.str`: ASCII text between double quotes, then blanks or a comment only (30_encoding.md R46; log 12). -/
def quotedText (cs : List Char) : Option (List Nat) :=
  match trimBlanks cs with
  | '"' :: rest =>
    match rest.dropWhile (· != '"') with
    | '"' :: after =>
      if (trimBlanks (uncomment after)).isEmpty then some ((rest.takeWhile (· != '"')).map Char.toNat) else none
    | _ => none
  | _ => none

/-- The line of a mnemonic, in lower case, and the text after it (30_encoding.md R45, R46). -/
def parseCommand (mnemonic : List Char) (rest : List Char) : Option AsmLine :=
  if mnemonic = "crc.str".toList then (quotedText rest).map .crcStr
  else if mnemonic = "mwf.dec".toList then
    match operandTexts rest with
    | [v, w] =>
      match parseInt (trimBlanks v), parseNat (trimBlanks w) with
      | some version, some word => some (.mwfDec version word)
      | _, _ => none
    | _ => none
  else
    match parseNats (operandTexts rest) with
    | none => none
    | some ns =>
      if mnemonic = "crc.msg".toList then some (.crcMsg ns)
      else if mnemonic = "crc16b".toList then some (.crc16b ns)
      else if mnemonic = "checksum".toList then some (.checksum ns)
      else
        match ns with
        | [] =>
          if mnemonic = "crc.init".toList then some .crcInit
          else if mnemonic = "crc.read".toList then some .crcRead
          else if mnemonic = "crc.sum".toList then some .crcSum
          else none
        | [a] =>
          if mnemonic = "crc.byte".toList then some (.crcByte a)
          else if mnemonic = ".word".toList then some (.rawWord a)
          else none
        | [a, b] => if mnemonic = "rev".toList then some (.rev a b) else none
        | [a, b, c, d, e] =>
          if mnemonic = "mwf.enc".toList then some (.mwfEnc a b c d e)
          else if mnemonic = "mwf.pack".toList then some (.mwfPack a b c d e)
          else none
        | _ => none

/-- One line of text: a command, or no assembly at all (30_encoding.md R45), or no command and so no word: a line that is blank or
holds a comment only. R45 is silent on such a line: DESIGN CHOICE (log 12). -/
def parseLine (line : List Char) : Option (Option AsmLine) :=
  let body := trimBlanks line
  if (trimBlanks (uncomment body)).isEmpty then some none
  else
    let endsMnemonic := fun c => !(isBlank c || c == ';' || c == '"')
    (parseCommand ((body.takeWhile endsMnemonic).map Char.toLower) (body.dropWhile endsMnemonic)).map some

/-- The command words of lines of text, in order. -/
def assembleLines : List (List Char) → Option (List CmdWord)
  | [] => some []
  | line :: lines =>
    match parseLine line, assembleLines lines with
    | some none, some ws => some ws
    | some (some l), some ws => (assemble l).map fun v => v ++ ws
    | _, _ => none

/-- The command words of a program text, one command a line (30_encoding.md R45, R46). -/
def assembleText (text : String) : Option (List CmdWord) := assembleLines (splitAt '\n' text.toList)

end Sys2Proof.Machine
end

