-- ==== Sys2Proof/Machine/Block.lean ====
section
/-! DEFINITION. The block by itself, as 10_state.md R10 has it: its state is `REM` alone, and the event is an argument. -/

namespace Sys2Proof.Machine

/-- What the block does with one event: its next state, and the response it emits, if any (10_state.md R10; 20_memory.md R27;
70_reset_and_hazards.md R98). It is `step` with this one event at the ports; no step refuses (log 10). -/
def Block.react (e : PortEvent) (b : Block) : Block × Option RspWord :=
  match step { toBlock := b, inputs := [e], responses := [] } with
  | .next t => (t.toBlock, t.responses.head?)
  | .fault reason => nomatch reason
  | .refused _ => (b, none)

end Sys2Proof.Machine
end

