-- ==== Sys2Proof/Safety.lean ====
section
/-! DEFINITION. Runs, and what counts as a safe one, in the terms the claims use (70_reset_and_hazards.md R108 to R110). -/

namespace Sys2Proof.Machine

/-- A step or a run that ends in a next state: nothing stopped the machine (60_exceptions.md R82). -/
def SafeOutcome (o : Host.Outcome State Fault Refusal) : Prop := ∃ t, o = .next t

/-- The state in which a run starts: after one reset, with its commands and further resets presented in order
(70_reset_and_hazards.md R109). -/
def runStart (events : List PortEvent) : State := State.reset.present events

/-- `n` steps of the block from a state: the host's `Core.run`, typed at the model's own state. -/
def runSteps (n : Nat) (s : State) : Host.Outcome State Fault Refusal := Host.Core.run Sys2Proof.core n s

/-- A run, taken until every event has been accepted and every command answered (70_reset_and_hazards.md R109). Resets that stand
after the last command are taken too, so `REM` is then 0xFFFF at the end: the rule ends the run at the last command's response and
does not say what such resets are to its result. DESIGN CHOICE (log 16), unsafe. -/
def runOf (events : List PortEvent) : Host.Outcome State Fault Refusal :=
  runSteps events.length (runStart events)

/-- How many events of a list are commands: one response is due for each (20_memory.md R27), none for a reset
(70_reset_and_hazards.md R98). -/
def commandCount : List PortEvent → Nat
  | [] => 0
  | .command _ :: es => commandCount es + 1
  | .reset :: es => commandCount es

/-- What one event does to the message being absorbed: a reset or a `CRC.INIT` starts an empty message, a `CRC.BYTE` appends its
byte, every other word leaves the message as it is (41_crc.md R63; 70_reset_and_hazards.md R102). -/
def absorbEvent (message : List Byte) : PortEvent → List Byte
  | .reset => []
  | .command cmd =>
    match decode cmd with
    | .ok .crcInit => []
    | .ok (.crcByte d) => message ++ [d]
    | .ok .crcRead => message
    | .ok .crcSum => message
    | .ok (.rev _ _) => message
    | .ok (.mwfDec _ _) => message
    | .ok (.mwfEnc _ _ _ _ _ _) => message
    | .error _ => message

/-- The bytes of the current message after a list of events: those absorbed since the last `CRC.INIT` or reset (20_memory.md
R28 (a)). -/
def absorbed (message : List Byte) (events : List PortEvent) : List Byte := events.foldl absorbEvent message

/-- A response the block can emit: `OK`, or one of the three reachable fault codes with no data (30_encoding.md R32;
60_exceptions.md R83, R84). -/
def ResponseLegal (rsp : RspWord) : Prop :=
  statusOf rsp = Status.number .ok ∨
    (dataOf rsp = 0 ∧
      (statusOf rsp = Status.number (.fault .illegal) ∨ statusOf rsp = Status.number (.fault .fveVersion) ∨
        statusOf rsp = Status.number (.fault .fveRange)))

/-- Every response emitted so far is legal. -/
def ResponsesLegal (s : State) : Prop := ∀ rsp ∈ s.responses, ResponseLegal rsp

/-- The byte step in its reflected form, for cross-checking (41_crc.md R64): XOR the byte in, then eight right shifts with the
reversed polynomial 0x8408. -/
def reflectedByte (q : BitVec 16) (d : Byte) : BitVec 16 :=
  Nat.iterate (fun q => (q >>> 1) ^^^ (if q.getLsbD 0 then 0x8408#16 else 0#16)) 8 (q ^^^ d.setWidth 16)

/-- One trip of a packed word through the decoder and the encoder (42_mwf.md R78). -/
def roundTrip (version : BitVec 32) (word : MwfWord) : Except FaultCode MwfWord :=
  match mwfDecode version word with
  | .error code => .error code
  | .ok (wf, _) => mwfEncode wf

/-- `k` successive trips, stopping at the first fault (42_mwf.md R79). -/
def roundTrips (version : BitVec 32) : Nat → MwfWord → Except FaultCode MwfWord
  | 0, word => .ok word
  | k + 1, word =>
    match roundTrip version word with
    | .error code => .error code
    | .ok word' => roundTrips version k word'

/-- "Every response was `OK`", the premise a host's claim needs, since the block does not stop after a fault (92_eei_decisions.md
D21). -/
def AllOk (s : State) : Prop := ∀ rsp ∈ s.responses, statusOf rsp = Status.number .ok

end Sys2Proof.Machine
end

