-- ==== Sys2Proof/Certificates/Slice0/Obligations.lean ====
section
/-! DEFINITION. The statements for the provers, in the order of the spec's files. A command at the head of `s.inputs` is the one
`step` accepts next; `{ s with … }` in a conclusion says the whole frame, since every field it does not name is unchanged. -/

open Sys2Proof Sys2Proof.Machine

/-! ### 00_scope.md, 20_memory.md: parameter records, byte order -/

/-- 00_scope.md R6: the generic engine has a value exactly on the well-formed records, and it stays below `2^WIDTH`; CRC16B is
well-formed and its value is the block's. -/
def Obligations.IllFormedRecordsAreRefused : Prop :=
  (∀ (P : ParamRecord) (data : List Byte),
    ((crcOfRecord P data).isSome = true ↔
      1 ≤ P.width ∧ P.poly < 2 ^ P.width ∧ P.init < 2 ^ P.width ∧ P.xorout < 2 ^ P.width) ∧
    ∀ c, crcOfRecord P data = some c → c < 2 ^ P.width) ∧
  ∀ data : List Byte, crcOfRecord crc16bRecord data = some (crc16bOf data).toNat

/-- 20_memory.md R19: `le_bytes` and its inverse. -/
def Obligations.LittleEndianBytesInvert : Prop :=
  ∀ v n : Nat, v < 2 ^ (8 * n) →
    (leBytes v n).length = n ∧
    (∀ k, k < n → (leBytes v n)[k]? = some (BitVec.ofNat 8 (v >>> (8 * k)))) ∧
    fromLeBytes (leBytes v n) = v ∧
    (∀ bytes : List Byte, bytes.length = n → leBytes (fromLeBytes bytes) n = bytes ∧ fromLeBytes bytes < 2 ^ (8 * n))

/-- 20_memory.md R20: a packed word and its four stream bytes determine each other, the lowest offset holding bits 7 to 0. -/
def Obligations.PackedWordIsItsStreamBytes : Prop :=
  (∀ word : MwfWord,
    streamBytes word =
      [word.extractLsb' 0 8, word.extractLsb' 8 8, word.extractLsb' 16 8, word.extractLsb' 24 8] ∧
    wordOfStream (streamBytes word) = word) ∧
  (∀ b0 b1 b2 b3 : Byte, streamBytes (wordOfStream [b0, b1, b2, b3]) = [b0, b1, b2, b3]) ∧
  streamBytes 2182449288 = [0x88, 0x88, 0x15, 0x82]

/-- 41_crc.md R52: eight bit steps, the most significant bit of the possibly reversed byte first; so with `REFIN` the bits of the
supplied byte enter from bit 0 up (20_memory.md section 1). -/
def Obligations.MessageByteEntersBitByBit : Prop :=
  ∀ {w : Nat} (P : CrcParams w) (rem : BitVec w) (d : Byte),
    crcByte P rem d =
      [7, 6, 5, 4, 3, 2, 1, 0].foldl
        (fun r i => crcBit P r ((if P.refin then reverseBits d.toNat 8 else d.toNat).testBit i)) rem ∧
    crcByte P rem d =
      (if P.refin then [0, 1, 2, 3, 4, 5, 6, 7] else [7, 6, 5, 4, 3, 2, 1, 0]).foldl
        (fun r i => crcBit P r (d.getLsbD i)) rem

/-! ### 10_state.md, 70_reset_and_hazards.md: REM, reset, idling -/

/-- 10_state.md R10: the block's state is `REM` alone, and a step is what the block does with the event as an argument; all a step
does beside is to move the events and the responses along (log 1). -/
def Obligations.BlockStateIsRemAlone : Prop :=
  (∀ b b' : Block, b = b' ↔ b.rem = b'.rem) ∧
  ∀ (s : State) (e : PortEvent) (rest : List PortEvent), s.inputs = e :: rest →
    step s = .next {
      toBlock := (Block.react e s.toBlock).1
      inputs := rest
      responses := s.responses ++ (Block.react e s.toBlock).2.toList }

/-- 10_state.md section 1: `REM` is written by `CRC.INIT` and `CRC.BYTE` alone and read by `CRC.BYTE`, `CRC.READ` and `CRC.SUM`
alone: for every other command the responses, and what `CRC.INIT` writes, are the same whatever `REM` was. No command takes anything
from the ports but its own word. -/
def Obligations.RemIsReadAndWrittenByCrcCommandsOnly : Prop :=
  ∀ (i : Instr) (s : State),
    ∃ t, exec i s = .next t ∧ t.inputs = s.inputs ∧ (∃ rsp, t.responses = s.responses ++ [rsp]) ∧
      (i.opcode ≠ .crcInit → i.opcode ≠ .crcByte → t.rem = s.rem) ∧
      (i.opcode ≠ .crcByte → i.opcode ≠ .crcRead → i.opcode ≠ .crcSum → ∀ r : BitVec 16,
        ∃ u, exec i { s with rem := r } = .next u ∧ u.responses = t.responses ∧ (i.opcode = .crcInit → u.rem = t.rem))

/-- 10_state.md section 3: after reset `REM` is 0xFFFF. That nothing is presented or emitted then is the model's choice (log 1) and
not stated here. -/
def Obligations.ResetStateHoldsInitialRemainder : Prop :=
  State.reset.rem = 0xFFFF#16

/-- 70_reset_and_hazards.md R99: a reset event loads `REM`, changes nothing else and emits no response, and leaves the block as a
`CRC.INIT` does, but for that command's response. -/
def Obligations.ResetEventLoadsInitialRemainder : Prop :=
  ∀ (s : State) (rest : List PortEvent), s.inputs = .reset :: rest →
    step s = .next { s with rem := 0xFFFF#16, inputs := rest } ∧
    ∃ t, exec .crcInit { s with inputs := rest } = .next t ∧
      { t with responses := s.responses } = { s with rem := 0xFFFF#16, inputs := rest }

/-- 60_exceptions.md section 4: with nothing presented the block idles and all state survives (how an idle step reads is log 9). -/
def Obligations.IdleStepHoldsEverything : Prop :=
  ∀ s : State, s.inputs = [] → step s = .next s

/-! ### 30_encoding.md: words -/

/-- 30_encoding.md R32: the two fields of a response word. -/
def Obligations.ResponseWordHoldsStatusAndData : Prop :=
  ∀ (status : Status) (data : Lane),
    (rspWord status data).extractLsb' 64 8 = status.number ∧ (rspWord status data).extractLsb' 0 64 = data

/-- Every well-formed command is what the decoder reads from its own word. -/
def Obligations.DecodeOfEncodeIsIdentity : Prop :=
  ∀ i : Instr, i.wellFormed = true → decode (encode i) = .ok i

/-- Every word the decoder accepts is the word of the command it reads, and that command is well-formed: no bit is dropped. -/
def Obligations.EncodeOfDecodeIsIdentity : Prop :=
  ∀ (cmd : CmdWord) (i : Instr), decode cmd = .ok i → encode i = cmd ∧ i.wellFormed = true

/-- 30_encoding.md R43: the decoder's checks, in their order, and their agreement with the opcode table. -/
def Obligations.DecoderChecksFollowTheOpcodeTable : Prop :=
  (mbzMask .crcInit = 0xFFFFFFFFFFFFFFFF ∧ mbzMask .crcRead = 0xFFFFFFFFFFFFFFFF ∧ mbzMask .crcSum = 0xFFFFFFFFFFFFFFFF ∧
    mbzMask .crcByte = 0xFFFFFFFFFFFFFF00 ∧ mbzMask .rev = 0xFFFFFFC000000000 ∧
    mbzMask .mwfDec = 0x0000000000000000 ∧ mbzMask .mwfEnc = 0xFC00000000000000) ∧
  ∀ cmd : CmdWord,
    (decode cmd = .error .unassignedOpcode ↔
      cmd.extractLsb' 64 8 ∉ [0x01#8, 0x02#8, 0x03#8, 0x04#8, 0x08#8, 0x10#8, 0x11#8]) ∧
    (decode cmd = .error .mustBeZeroBit ↔
      ∃ op, opcodeOf (cmd.extractLsb' 64 8) = some op ∧ cmd.extractLsb' 0 64 &&& mbzMask op ≠ 0) ∧
    (decode cmd = .error .revCount ↔
      cmd.extractLsb' 64 8 = 0x08#8 ∧ cmd.extractLsb' 38 26 = 0#26 ∧ 32 < (cmd.extractLsb' 32 6).toNat) ∧
    (∀ i, decode cmd = .ok i →
      ∃ op, opcodeOf (cmd.extractLsb' 64 8) = some op ∧
        i = match op with
          | .crcInit => .crcInit
          | .crcByte => .crcByte (cmd.extractLsb' 0 8)
          | .crcRead => .crcRead
          | .crcSum => .crcSum
          | .rev => .rev (cmd.extractLsb' 32 6) (cmd.extractLsb' 0 32)
          | .mwfDec => .mwfDec (cmd.extractLsb' 32 32) (cmd.extractLsb' 0 32)
          | .mwfEnc => .mwfEnc (cmd.extractLsb' 0 8) (cmd.extractLsb' 8 8) (cmd.extractLsb' 16 24) (cmd.extractLsb' 40 8)
              (cmd.extractLsb' 48 8) (cmd.extractLsb' 56 2)) ∧
    (∀ row ∈ opcodeTable,
      (cmd &&& row.mask = row.pattern ↔
        opcodeOf (cmd.extractLsb' 64 8) = some row.opcode ∧ cmd.extractLsb' 0 64 &&& mbzMask row.opcode = 0)) ∧
    (∀ row ∈ opcodeTable, ∀ row' ∈ opcodeTable,
      cmd &&& row.mask = row.pattern → cmd &&& row'.mask = row'.pattern → row = row')

/-- A few command words of 95_test_vectors.md and the commands they stand for. -/
def Obligations.SampleWordsDecode : Prop :=
  decode 0x010000000000000000 = .ok .crcInit ∧
  decode 0x020000000000000031 = .ok (.crcByte 0x31) ∧
  decode 0x030000000000000000 = .ok .crcRead ∧
  decode 0x040000000000000000 = .ok .crcSum ∧
  decode 0x080000002082158888 = .ok (.rev 32 0x82158888) ∧
  decode 0x10FFFFFFFF82158888 = .ok (.mwfDec 0xFFFFFFFF 0x82158888) ∧
  decode 0x1103100400AC440200 = .ok (.mwfEnc 0 2 44100 4 16 3) ∧
  decode 0x000000000000000000 = .error .unassignedOpcode ∧
  decode 0x020000000000000131 = .error .mustBeZeroBit ∧
  decode 0x080000002100000001 = .error .revCount

/-- 30_encoding.md section 7: what the assembler makes of the line of each of the seven commands and of `.word`, and that it refuses
exactly the operands outside their ranges. (That the `word` operand of `mwf.dec` is below 2^32 is the model's choice, log 12.) -/
def Obligations.AssembledCommandsDecodeAsWritten : Prop :=
  (∃ w, assemble .crcInit = some [w] ∧ decode w = .ok .crcInit) ∧
  (∃ w, assemble .crcRead = some [w] ∧ decode w = .ok .crcRead) ∧
  (∃ w, assemble .crcSum = some [w] ∧ decode w = .ok .crcSum) ∧
  (∀ d : Nat, d ≤ 255 → ∃ w, assemble (.crcByte d) = some [w] ∧ decode w = .ok (.crcByte (BitVec.ofNat 8 d))) ∧
  (∀ d : Nat, 255 < d → assemble (.crcByte d) = none) ∧
  (∀ n value : Nat, n ≤ 63 → value < 2 ^ 32 →
    ∃ w, assemble (.rev n value) = some [w] ∧
      decode w = if n ≤ 32 then .ok (.rev (BitVec.ofNat 6 n) (BitVec.ofNat 32 value)) else .error .revCount) ∧
  (∀ n value : Nat, (63 < n ∨ 2 ^ 32 ≤ value) → assemble (.rev n value) = none) ∧
  (∀ (version : Int) (word : Nat), -2 ^ 31 ≤ version → version < 2 ^ 31 → word < 2 ^ 32 →
    ∃ w v, assemble (.mwfDec version word) = some [w] ∧ decode w = .ok (.mwfDec v (BitVec.ofNat 32 word)) ∧
      signedVersion v = version) ∧
  (∀ (version : Int) (word : Nat), (version < -2 ^ 31 ∨ 2 ^ 31 ≤ version ∨ 2 ^ 32 ≤ word) →
    assemble (.mwfDec version word) = none) ∧
  (∀ c h r a b : Nat, c < 2 ^ 8 → h < 2 ^ 8 → r < 2 ^ 24 → a < 2 ^ 8 → b < 2 ^ 8 →
    ∃ w, assemble (.mwfEnc c h r a b) = some [w] ∧
      decode w =
        .ok (.mwfEnc (BitVec.ofNat 8 c) (BitVec.ofNat 8 h) (BitVec.ofNat 24 r) (BitVec.ofNat 8 a) (BitVec.ofNat 8 b) 0)) ∧
  (∀ c h r a b : Nat, (2 ^ 8 ≤ c ∨ 2 ^ 8 ≤ h ∨ 2 ^ 24 ≤ r ∨ 2 ^ 8 ≤ a ∨ 2 ^ 8 ≤ b) → assemble (.mwfEnc c h r a b) = none) ∧
  (∀ w : Nat, w < 2 ^ 72 → assemble (.rawWord w) = some [BitVec.ofNat 72 w]) ∧
  (∀ w : Nat, 2 ^ 72 ≤ w → assemble (.rawWord w) = none)

/-- 30_encoding.md R46: the expansions of the pseudo-instructions, and what their runs leave and answer from any state. -/
def Obligations.PseudoInstructionsComputeChecksums : Prop :=
  ∀ bytes : List Byte,
    (assemble (.crcMsg (bytes.map BitVec.toNat)) =
        some (encode .crcInit :: bytes.map fun b => encode (.crcByte b)) ∧
      ∀ s : State, s.inputs = (encode .crcInit :: bytes.map fun b => encode (.crcByte b)).map .command →
        ∃ t, runSteps (bytes.length + 1) s = .next t ∧ t.rem = crcUpdate crc16b 0xFFFF bytes) ∧
    (assemble (.crc16b (bytes.map BitVec.toNat)) =
        some (encode .crcInit :: ((bytes.map fun b => encode (.crcByte b)) ++ [encode .crcRead])) ∧
      ∀ s : State,
        s.inputs = (encode .crcInit :: ((bytes.map fun b => encode (.crcByte b)) ++ [encode .crcRead])).map .command →
        ∃ t, runSteps (bytes.length + 2) s = .next t ∧
          t.responses.getLast? = some (rspWord .ok ((crc16bOf bytes).setWidth 64))) ∧
    (assemble (.checksum (bytes.map BitVec.toNat)) =
        some (encode .crcInit :: ((bytes.map fun b => encode (.crcByte b)) ++ [encode .crcSum])) ∧
      ∀ s : State,
        s.inputs = (encode .crcInit :: ((bytes.map fun b => encode (.crcByte b)) ++ [encode .crcSum])).map .command →
        ∃ t rsp, runSteps (bytes.length + 2) s = .next t ∧ t.responses.getLast? = some rsp ∧
          statusOf rsp = 0x00#8 ∧ soundbankChecksum bytes = [rsp.extractLsb' 0 8, rsp.extractLsb' 8 8]) ∧
    ((∀ b ∈ bytes, b.toNat < 128) →
      assemble (.crcStr (bytes.map BitVec.toNat)) = some (bytes.map fun b => encode (.crcByte b))) ∧
    ∀ c h r a b : Nat, assemble (.mwfPack c h r a b) = assemble (.mwfEnc c h r a b)

/-! ### 40_bitrev.md: bit reversal -/

/-- 40_bitrev.md R47. -/
def Obligations.ReverseBitsMirrorsTheLowBits : Prop :=
  ∀ value n : Nat,
    reverseBits value n < 2 ^ n ∧
    (∀ i, i < n → (reverseBits value n).testBit (n - 1 - i) = value.testBit i) ∧
    (∀ j, n ≤ j → (reverseBits value n).testBit j = false) ∧
    (∀ value', (∀ i, i < n → value'.testBit i = value.testBit i) → reverseBits value' n = reverseBits value n)

/-- 40_bitrev.md R48. -/
def Obligations.ReverseBitsLaws : Prop :=
  (∀ v, reverseBits v 0 = 0) ∧
  (∀ v, reverseBits v 1 = v % 2) ∧
  (∀ n v, v < 2 ^ n → reverseBits (reverseBits v n) n = v) ∧
  (∀ n, Set.BijOn (fun v => reverseBits v n) { v | v < 2 ^ n } { v | v < 2 ^ n }) ∧
  (∀ v n, reverseBits v n = reverseBits (v % 2 ^ n) n) ∧
  (∀ a b n, reverseBits (a ^^^ b) n = reverseBits a n ^^^ reverseBits b n) ∧
  (∀ a b n, reverseBits (a &&& b) n = reverseBits a n &&& reverseBits b n) ∧
  (∀ a b n, reverseBits (a ||| b) n = reverseBits a n ||| reverseBits b n) ∧
  (∀ (rem : BitVec 16) (d : Byte),
    crcByte crc16b rem d =
      [7, 6, 5, 4, 3, 2, 1, 0].foldl (fun r i => crcBit crc16b r ((reverseBits d.toNat 8).testBit i)) rem) ∧
  (∀ rem : BitVec 16, (crcFinish crc16b rem).toNat = reverseBits rem.toNat 16 ^^^ 0xFFFF)

/-- `REV` completes with the reversed bits for every legal count, and answers ILLEGAL above it. -/
def Obligations.RevAnswersTheReversedBits : Prop :=
  ∀ (n : BitVec 6) (value : BitVec 32) (s : State),
    (n.toNat ≤ 32 →
      ∃ data : Lane, data.toNat = reverseBits value.toNat n.toNat ∧
        exec (.rev n value) s = .next { s with responses := s.responses ++ [rspWord .ok data] }) ∧
    (32 < n.toNat →
      exec (.rev n value) s = .next { s with responses := s.responses ++ [rspWord (.fault .illegal) 0] })

/-- 40_bitrev.md R49, from the command word. -/
def Obligations.RevCommandWordFollowsItsRule : Prop :=
  ∀ (s : State) (cmd : CmdWord) (rest : List PortEvent), s.inputs = .command cmd :: rest →
    cmd.extractLsb' 64 8 = 0x08#8 →
    step s = .next { s with
      inputs := rest
      responses := s.responses ++
        [if cmd.extractLsb' 38 26 ≠ 0#26 ∨ 32 < (cmd.extractLsb' 32 6).toNat then rspWord (.fault .illegal) 0
         else rspWord .ok (BitVec.ofNat 64 (reverseBits (cmd.extractLsb' 0 32).toNat (cmd.extractLsb' 32 6).toNat))] }

/-- 40_bitrev.md R50 and 10_state.md R17: the response of `REV`, `MWF.DEC` and `MWF.ENC` is a function of the command word, and
`REM` is untouched. -/
def Obligations.PureCommandsAnswerFromTheirWordAlone : Prop :=
  ∀ cmd : CmdWord, cmd.extractLsb' 64 8 ∈ [0x08#8, 0x10#8, 0x11#8] →
    ∃ rsp : RspWord, ∀ (s : State) (rest : List PortEvent), s.inputs = .command cmd :: rest →
      step s = .next { s with inputs := rest, responses := s.responses ++ [rsp] }

/-! ### 41_crc.md: the CRC unit -/

/-- 41_crc.md R51, on natural numbers. -/
def Obligations.CrcBitStepShiftsAndReduces : Prop :=
  ∀ {w : Nat} (P : CrcParams w) (rem : BitVec w) (bit : Bool),
    (crcBit P rem bit).toNat =
      (2 * rem.toNat % 2 ^ w) ^^^ (if rem.toNat.testBit (w - 1) ≠ bit then P.poly.toNat else 0)

/-- 41_crc.md R53, R55: absorbing is a left fold that any split of the data respects, and the function is total. -/
def Obligations.CrcOfSplitDataContinues : Prop :=
  ∀ {w : Nat} (P : CrcParams w) (rem : BitVec w) (x y : List Byte) (d : Byte),
    crcUpdate P rem [] = rem ∧
    crcUpdate P rem (x ++ [d]) = crcByte P (crcUpdate P rem x) d ∧
    crcUpdate P rem (x ++ y) = crcUpdate P (crcUpdate P rem x) y ∧
    crc P x = crcFinish P (crcUpdate P P.init x) ∧
    crc P [] = crcFinish P P.init

/-- 41_crc.md R54: finishing is a bijection, with the inverse the rule gives. -/
def Obligations.CrcFinishIsInvertible : Prop :=
  ∀ {w : Nat} (P : CrcParams w),
    (∀ rem : BitVec w,
      (crcFinish P rem).toNat = (if P.refout then reverseBits rem.toNat w else rem.toNat) ^^^ P.xorout.toNat) ∧
    (∀ rem : BitVec w,
      rem.toNat =
        if P.refout then reverseBits (crcFinish P rem ^^^ P.xorout).toNat w
        else (crcFinish P rem ^^^ P.xorout).toNat) ∧
    Function.Bijective (crcFinish P)

/-- 41_crc.md R57: the record CRC16B, and the engine at it. -/
def Obligations.Crc16bIsTheNamedInstance : Prop :=
  crc16bRecord = ⟨16, 0x1021, 0xFFFF, true, true, 0xFFFF⟩ ∧ crc16bRecord.params? = some crc16b ∧
  (∀ (rem : BitVec 16) (bit : Bool),
    crcBit crc16b rem bit = (rem <<< 1) ^^^ (if rem.getLsbD 15 ≠ bit then 0x1021#16 else 0#16)) ∧
  (∀ (rem : BitVec 16) (d : Byte),
    crcByte crc16b rem d =
      [7, 6, 5, 4, 3, 2, 1, 0].foldl (fun r i => crcBit crc16b r ((reverseBits d.toNat 8).testBit i)) rem) ∧
  (∀ rem : BitVec 16,
    (crcFinish crc16b rem).toNat = reverseBits rem.toNat 16 ^^^ 0xFFFF ∧
    (crcFinish crc16b rem).toNat = reverseBits (rem ^^^ 0xFFFF#16).toNat 16) ∧
  (∀ data : List Byte, crc16bOf data = crcFinish crc16b (crcUpdate crc16b 0xFFFF#16 data))

/-- 41_crc.md R58, 20_memory.md R21: the checksum is the CRC's two bytes, the least significant first. -/
def Obligations.ChecksumEmitsLowByteFirst : Prop :=
  (∀ data : List Byte, soundbankChecksum data = [(crc16bOf data).extractLsb' 0 8, (crc16bOf data).extractLsb' 8 8]) ∧
  leBytes 0x9D88 2 = [0x88, 0x9D]

/-- `CRC.INIT` and `CRC.BYTE` complete in every state: what they leave in `REM`, what they answer, and their frame. -/
def Obligations.CrcInitAndByteWriteRem : Prop :=
  ∀ (s : State) (d : Byte),
    exec .crcInit s = .next { s with rem := 0xFFFF, responses := s.responses ++ [rspWord .ok 0] } ∧
    exec (.crcByte d) s =
      .next { s with rem := crcByte crc16b s.rem d, responses := s.responses ++ [rspWord .ok 0] }

/-- `CRC.READ` and `CRC.SUM` complete in every state: what they answer, and that `REM` keeps the unfinished remainder. -/
def Obligations.CrcReadAndSumAnswerTheCrc : Prop :=
  ∀ s : State,
    (∃ data : Lane, data.toNat = reverseBits s.rem.toNat 16 ^^^ 0xFFFF ∧
      exec .crcRead s = .next { s with responses := s.responses ++ [rspWord .ok data] }) ∧
    (∃ data : Lane,
      data.extractLsb' 0 8 = (crcFinish crc16b s.rem).extractLsb' 0 8 ∧
      data.extractLsb' 8 8 = (crcFinish crc16b s.rem).extractLsb' 8 8 ∧
      data.extractLsb' 16 48 = 0#48 ∧
      exec .crcSum s = .next { s with responses := s.responses ++ [rspWord .ok data] })

/-- 41_crc.md R59, from the command word. -/
def Obligations.CrcInitCommandWordFollowsItsRule : Prop :=
  ∀ (s : State) (cmd : CmdWord) (rest : List PortEvent), s.inputs = .command cmd :: rest →
    cmd.extractLsb' 64 8 = 0x01#8 →
    step s =
      if cmd.extractLsb' 0 64 ≠ 0#64 then
        .next { s with inputs := rest, responses := s.responses ++ [rspWord (.fault .illegal) 0] }
      else .next { rem := 0xFFFF#16, inputs := rest, responses := s.responses ++ [rspWord .ok 0] }

/-- 41_crc.md R60, from the command word. -/
def Obligations.CrcByteCommandWordFollowsItsRule : Prop :=
  (∀ (s : State) (cmd : CmdWord) (rest : List PortEvent), s.inputs = .command cmd :: rest →
    cmd.extractLsb' 64 8 = 0x02#8 →
    step s =
      if cmd.extractLsb' 8 56 ≠ 0#56 then
        .next { s with inputs := rest, responses := s.responses ++ [rspWord (.fault .illegal) 0] }
      else
        .next { rem := crcByte crc16b s.rem (cmd.extractLsb' 0 8), inputs := rest
                responses := s.responses ++ [rspWord .ok 0] }) ∧
  crcByte crc16b 0xFFFF#16 0x00#8 = 0xE1F0#16 ∧ crcByte crc16b 0xFFFF#16 0x31#8 = 0xB1F4#16

/-- 41_crc.md R61, from the command word; the response determines `REM`. -/
def Obligations.CrcReadCommandWordFollowsItsRule : Prop :=
  ∀ (s : State) (cmd : CmdWord) (rest : List PortEvent), s.inputs = .command cmd :: rest →
    cmd.extractLsb' 64 8 = 0x03#8 →
    ∃ c : BitVec 16, c.toNat = reverseBits s.rem.toNat 16 ^^^ 0xFFFF ∧
      s.rem.toNat = reverseBits (c ^^^ 0xFFFF#16).toNat 16 ∧
      step s = .next { s with
        inputs := rest
        responses := s.responses ++
          [if cmd.extractLsb' 0 64 ≠ 0#64 then rspWord (.fault .illegal) 0 else rspWord .ok (c.setWidth 64)] }

/-- 41_crc.md R62, from the command word; the lanes hold the two bytes, and as a number they are the CRC. -/
def Obligations.CrcSumCommandWordFollowsItsRule : Prop :=
  ∀ (s : State) (cmd : CmdWord) (rest : List PortEvent), s.inputs = .command cmd :: rest →
    cmd.extractLsb' 64 8 = 0x04#8 →
    ∃ data : Lane,
      leBytes (crcFinish crc16b s.rem).toNat 2 = [data.extractLsb' 0 8, data.extractLsb' 8 8] ∧
      data = (crcFinish crc16b s.rem).setWidth 64 ∧
      step s = .next { s with
        inputs := rest
        responses := s.responses ++
          [if cmd.extractLsb' 0 64 ≠ 0#64 then rspWord (.fault .illegal) 0 else rspWord .ok data] }

/-- 41_crc.md R63: the commands compute the document's function, whatever is interleaved. `absorbed [] events` are the bytes of the
`CRC.BYTE` commands since the last `CRC.INIT` or reset. -/
def Obligations.MessageCommandsComputeTheDocumentsCrc : Prop :=
  (∀ (s : State) (first : PortEvent) (events : List PortEvent),
    (first = .reset ∨ first = .command (encode .crcInit)) → s.inputs = first :: events →
    ∃ t, runSteps (events.length + 1) s = .next t ∧ t.inputs = [] ∧
      t.rem = crcUpdate crc16b 0xFFFF (absorbed [] events) ∧
      exec .crcRead t = .next { t with
        responses := t.responses ++ [rspWord .ok ((crc16bOf (absorbed [] events)).setWidth 64)] } ∧
      ∃ data : Lane, soundbankChecksum (absorbed [] events) = [data.extractLsb' 0 8, data.extractLsb' 8 8] ∧
        exec .crcSum t = .next { t with responses := t.responses ++ [rspWord .ok data] }) ∧
  crcUpdate crc16b 0xFFFF [] = 0xFFFF#16 ∧ crc16bOf [] = 0x0000#16 ∧
  (∀ r : BitVec 16, ∃! p : Byte × Byte, crcUpdate crc16b 0xFFFF [p.1, p.2] = r) ∧
  crcUpdate crc16b 0xFFFF [0xFF, 0xFF] = 0x0000#16 ∧ crc16bOf [0xFF, 0xFF] = 0xFFFF#16 ∧
  crcUpdate crc16b 0xFFFF [0xDE, 0x0C] = 0xFFFF#16

/-- 41_crc.md R64: the reflected form of the byte step is the same function. -/
def Obligations.ReflectedByteStepAgrees : Prop :=
  (∀ (rem : BitVec 16) (d : Byte), crcByte crc16b rem d = reverseWord (reflectedByte (reverseWord rem) d)) ∧
  (∀ rem : BitVec 16, crcFinish crc16b rem = reverseWord rem ^^^ 0xFFFF#16) ∧
  reverseBits 0x1021 16 = 0x8408

/-- 41_crc.md R65: linearity, invertibility and the residue. -/
def Obligations.ByteStepIsLinearInvertibleWithResidue : Prop :=
  ((∀ (r1 r2 : BitVec 16) (d1 d2 : Byte),
    crcByte crc16b (r1 ^^^ r2) (d1 ^^^ d2) = crcByte crc16b r1 d1 ^^^ crcByte crc16b r2 d2) ∧
    crcByte crc16b 0 0 = 0) ∧
  ((∀ d : Byte, Function.Bijective fun r => crcByte crc16b r d) ∧
    ∀ (rem : BitVec 16) (bit : Bool),
      rem =
        ((crcBit crc16b rem bit ^^^ (if (crcBit crc16b rem bit).getLsbD 0 then 0x1021#16 else 0#16)) >>> 1) |||
          (if (crcBit crc16b rem bit).getLsbD 0 ≠ bit then 0x8000#16 else 0#16)) ∧
  ((∀ m : List Byte, crcUpdate crc16b 0xFFFF (m ++ soundbankChecksum m) = 0x1D0F#16) ∧
    crcFinish crc16b 0x1D0F = 0x0F47#16)

/-! ### 42_mwf.md: the MiniWaveFormat unit -/

/-- 42_mwf.md R68: layout selection, and every version from 2 up alike. -/
def Obligations.LayoutFollowsTheSignedVersion : Prop :=
  (∀ version : BitVec 32,
    (layoutOf version = .ok .v1 ↔ version.toInt = 1) ∧
    (layoutOf version = .ok .v2 ↔ 2 ≤ version.toInt) ∧
    (layoutOf version = .error .fveVersion ↔ version.toInt ≤ 0)) ∧
  ∀ (version version' : BitVec 32) (word : MwfWord), 2 ≤ version.toInt → 2 ≤ version'.toInt →
    mwfDecode version word = mwfDecode version' word

/-- 42_mwf.md R69: each field is a right shift and a mask, and V1 ignores bit 31. The V1 position of `bps_raw`, bit 30, is the
spec's choice (log 6): true of this spec, not necessarily of the repository (93_implementation_defined.md U3). -/
def Obligations.FieldsAreShiftedAndMasked : Prop :=
  ∀ word : MwfWord,
    ((fieldsOf .v1 word).codec.toNat = (word.toNat >>> 0) &&& 0x1 ∧
     (fieldsOf .v1 word).channels.toNat = (word.toNat >>> 1) &&& 0x7 ∧
     (fieldsOf .v1 word).rate.toNat = (word.toNat >>> 4) &&& 0x3FFFF ∧
     (fieldsOf .v1 word).alignment.toNat = (word.toNat >>> 22) &&& 0xFF ∧
     (fieldsOf .v1 word).bpsRaw.toNat = (word.toNat >>> 30) &&& 0x1) ∧
    ((fieldsOf .v2 word).codec.toNat = (word.toNat >>> 0) &&& 0x3 ∧
     (fieldsOf .v2 word).channels.toNat = (word.toNat >>> 2) &&& 0x7 ∧
     (fieldsOf .v2 word).rate.toNat = (word.toNat >>> 5) &&& 0x3FFFF ∧
     (fieldsOf .v2 word).alignment.toNat = (word.toNat >>> 23) &&& 0xFF ∧
     (fieldsOf .v2 word).bpsRaw.toNat = (word.toNat >>> 31) &&& 0x1) ∧
    fieldsOf .v1 (word ^^^ 0x80000000#32) = fieldsOf .v1 word

/-- 42_mwf.md section 2 (R70): the codec check fails for no codec number, so no decode answers `FVE_CODEC`; the names of the four
numbers are the four tags, each once. It rests on the model's opaque `CODEC_NAME` (DESIGN CHOICE, log 5), whatever that is, and on
the check being carried as a branch never taken (DEDUCED, log 10). -/
def Obligations.CodecCheckNeverFails : Prop :=
  (∀ codec : BitVec 2, checkCodec codec = .ok codec) ∧
  (∀ (version : BitVec 32) (word : MwfWord), mwfDecode version word ≠ .error .fveCodec) ∧
  Function.Bijective Config.codecName

/-- 42_mwf.md R71: bits per sample are interpreted under V2 alone, so no decode answers `FVE_BPS`; a version 1 decode still returns
`bps_raw`. The last clause depends on `bps_raw` of a version 1 decode, bit 30 by the spec's choice (log 6): it is true of this spec,
not necessarily of the repository (93_implementation_defined.md U3). -/
def Obligations.BitsPerSampleAreInterpretedUnderV2Only : Prop :=
  (∀ bpsRaw : BitVec 1,
    interpretBps .v2 bpsRaw = .ok (some (if bpsRaw = 0#1 then .eight else .sixteen)) ∧
    interpretBps .v1 bpsRaw = .ok none) ∧
  (bpsSlot (some .eight) = 8#8 ∧ bpsSlot (some .sixteen) = 16#8 ∧ bpsSlot none = 0#8 ∧ bpsPresent none = 0#1) ∧
  (∀ (version : BitVec 32) (word : MwfWord), mwfDecode version word ≠ .error .fveBps) ∧
  (∀ (word : MwfWord) (U : Lane), decResult 1 word = .ok U → U.extractLsb' 56 1 = word.extractLsb' 30 1)

/-- 42_mwf.md R81: for every version from 1 up, `MWF.DEC` completes and its response lane is the multiplexer of the rule's table.
At version 1 the lane's `bps_raw` is bit 30 by the spec's choice (log 6): true of this spec, not necessarily of the repository
(93_implementation_defined.md U3). -/
def Obligations.MwfDecIsTheMultiplexer : Prop :=
  ∀ (version : BitVec 32) (word : MwfWord) (s : State), 1 ≤ version.toInt →
    exec (.mwfDec version word) s = .next { s with
      responses := s.responses ++ [rspWord .ok (unpackedBits
        (if version.toInt = 1 then
          { codec8 := (word.extractLsb' 0 1).setWidth 8, channels8 := (word.extractLsb' 1 3).setWidth 8
            rate24 := (word.extractLsb' 4 18).setWidth 24, align8 := word.extractLsb' 22 8
            bps8 := 0, bpsRaw := word.extractLsb' 30 1, bpsValid := 0 }
        else
          { codec8 := (word.extractLsb' 0 2).setWidth 8, channels8 := (word.extractLsb' 2 3).setWidth 8
            rate24 := (word.extractLsb' 5 18).setWidth 24, align8 := word.extractLsb' 23 8
            bps8 := if word.extractLsb' 31 1 = 0#1 then 8 else 16
            bpsRaw := word.extractLsb' 31 1, bpsValid := 1 }))] }

/-- 60_exceptions.md R86: where `MWF.DEC` answers `FVE_VERSION` instead. -/
def Obligations.MwfDecRefusesVersionsBelowOne : Prop :=
  ∀ (version : BitVec 32) (word : MwfWord) (s : State),
    (version.toInt ≤ 0 ↔ version = 0#32 ∨ version.getLsbD 31 = true) ∧
    (exec (.mwfDec version word) s =
      .next { s with responses := s.responses ++ [rspWord (.fault .fveVersion) 0] } ↔ version.toInt ≤ 0)

/-- 42_mwf.md R73, from the command word, slot by slot. -/
def Obligations.MwfDecCommandWordFollowsItsRule : Prop :=
  ∀ (s : State) (cmd : CmdWord) (rest : List PortEvent), s.inputs = .command cmd :: rest →
    cmd.extractLsb' 64 8 = 0x10#8 →
    match mwfDecode (cmd.extractLsb' 32 32) (cmd.extractLsb' 0 32) with
    | .error code =>
      code = .fveVersion ∧ (cmd.extractLsb' 32 32).toInt ≤ 0 ∧
      step s = .next { s with inputs := rest, responses := s.responses ++ [rspWord (.fault .fveVersion) 0] }
    | .ok (wf, bpsRaw) =>
      1 ≤ (cmd.extractLsb' 32 32).toInt ∧
      ∃ U : Lane,
        step s = .next { s with inputs := rest, responses := s.responses ++ [rspWord .ok U] } ∧
        (U.extractLsb' 0 8).toNat = wf.codec.toNat ∧
        (U.extractLsb' 8 8).toNat = wf.channels.toNat ∧
        (U.extractLsb' 16 24).toNat = wf.sampleRate.toNat ∧
        (U.extractLsb' 40 8).toNat = wf.blockAlignment.toNat ∧
        (U.extractLsb' 48 8).toNat =
          (match wf.bitsPerSample with | none => 0 | some .eight => 8 | some .sixteen => 16) ∧
        U.extractLsb' 56 1 = bpsRaw ∧
        ((U.extractLsb' 57 1 = 1#1 ↔ wf.bitsPerSample.isSome = true)) ∧
        U.extractLsb' 58 6 = 0#6

/-- 42_mwf.md R74, R75: on every record whose bits per sample are present, encoding is the OR of the shifted fields, which is their
sum and their XOR. -/
def Obligations.EncodeOfRecordTilesTheWord : Prop :=
  (∀ (wf : WaveFormat) (bps : SampleBits), wf.bitsPerSample = some bps →
    ∃ word : MwfWord, mwfEncode wf = .ok word ∧
      word.toNat =
        (wf.codec.toNat <<< 0 ||| wf.channels.toNat <<< 2 ||| wf.sampleRate.toNat <<< 5 ||| wf.blockAlignment.toNat <<< 23
          ||| (match bps with | .eight => 0 | .sixteen => 1) <<< 31) ∧
      word.toNat =
        wf.codec.toNat + wf.channels.toNat * 2 ^ 2 + wf.sampleRate.toNat * 2 ^ 5 + wf.blockAlignment.toNat * 2 ^ 23
          + (match bps with | .eight => 0 | .sixteen => 1) * 2 ^ 31 ∧
      word =
        (wf.codec.setWidth 32 ^^^ wf.channels.setWidth 32 <<< 2 ^^^ wf.sampleRate.setWidth 32 <<< 5
          ^^^ wf.blockAlignment.setWidth 32 <<< 23 ^^^ (rawBit bps).setWidth 32 <<< 31)) ∧
  rawBit .eight = 0#1 ∧ rawBit .sixteen = 1#1

/-- `MWF.ENC` completes with the packed word when every slot is in range, packing as addition (42_mwf.md section 3), and answers
`FVE_RANGE` when one is not; the ignored bits have no effect. -/
def Obligations.MwfEncPacksInRangeRecords : Prop :=
  ∀ (codec8 channels8 : BitVec 8) (rate24 : BitVec 24) (align8 bps8 : BitVec 8) (ignored : BitVec 2) (s : State),
    (codec8.toNat ≤ 3 → channels8.toNat ≤ 7 → rate24.toNat ≤ 262143 → (bps8.toNat = 8 ∨ bps8.toNat = 16) →
      ∃ data : Lane,
        data.toNat = codec8.toNat + channels8.toNat * 2 ^ 2 + rate24.toNat * 2 ^ 5 + align8.toNat * 2 ^ 23
          + (if bps8.toNat = 8 then 0 else 1) * 2 ^ 31 ∧
        exec (.mwfEnc codec8 channels8 rate24 align8 bps8 ignored) s =
          .next { s with responses := s.responses ++ [rspWord .ok data] }) ∧
    (¬(codec8.toNat ≤ 3 ∧ channels8.toNat ≤ 7 ∧ rate24.toNat ≤ 262143 ∧ (bps8.toNat = 8 ∨ bps8.toNat = 16)) →
      exec (.mwfEnc codec8 channels8 rate24 align8 bps8 ignored) s =
        .next { s with responses := s.responses ++ [rspWord (.fault .fveRange) 0] })

/-- 42_mwf.md R76, R77, from the command word: ILLEGAL first, then the range, then the OR of the shifted slots. -/
def Obligations.MwfEncCommandWordFollowsItsRule : Prop :=
  ∀ (s : State) (cmd : CmdWord) (rest : List PortEvent), s.inputs = .command cmd :: rest →
    cmd.extractLsb' 64 8 = 0x11#8 →
    step s = .next { s with
      inputs := rest
      responses := s.responses ++
        [if cmd.extractLsb' 58 6 ≠ 0#6 then rspWord (.fault .illegal) 0
         else if ¬((cmd.extractLsb' 0 8).toNat ≤ 3 ∧ (cmd.extractLsb' 8 8).toNat ≤ 7 ∧
             (cmd.extractLsb' 16 24).toNat ≤ 262143 ∧
             (cmd.extractLsb' 48 8 = 8#8 ∨ cmd.extractLsb' 48 8 = 16#8)) then rspWord (.fault .fveRange) 0
         else rspWord .ok
          ((cmd.extractLsb' 0 8).setWidth 64 ||| (cmd.extractLsb' 8 8).setWidth 64 <<< 2
            ||| (cmd.extractLsb' 16 24).setWidth 64 <<< 5 ||| (cmd.extractLsb' 40 8).setWidth 64 <<< 23
            ||| (if cmd.extractLsb' 48 8 = 8#8 then 0#64 else 1#64) <<< 31)] }

/-- 42_mwf.md R78: a word decoded at a version from 2 up and fed back to the encoder unchanged returns as it was. -/
def Obligations.DecodedWordReencodesToItself : Prop :=
  ∀ (version : BitVec 32) (v : MwfWord), 2 ≤ version.toInt →
    roundTrip version v = .ok v ∧
    ∀ (s : State) (rest : List PortEvent), s.inputs = .command (cmdWord 0x10#8 (version ++ v)) :: rest →
      ∃ U : Lane,
        step s = .next { s with inputs := rest, responses := s.responses ++ [rspWord .ok U] } ∧
        ∀ (s' : State) (rest' : List PortEvent), s'.inputs = .command (cmdWord 0x11#8 U) :: rest' →
          step s' = .next { s' with inputs := rest', responses := s'.responses ++ [rspWord .ok (v.setWidth 64)] }

/-- 42_mwf.md R79: any number of trips stays at the word; the document's literal at version 45 is an instance. -/
def Obligations.RepeatedRoundTripsAreAFixedPoint : Prop :=
  (∀ (version : BitVec 32) (v : MwfWord) (k : Nat), 2 ≤ version.toInt → roundTrips version k v = .ok v) ∧
  ∀ k : Nat, k ≤ 10 → roundTrips 45 k 2182449288 = .ok 2182449288

/-- 42_mwf.md R80: records round-trip; a V1 decode is refused by the encoder; the wrong version succeeds with another record. The
V1 instance 0x410AC444 shows `bps_raw` of a version 1 decode, bit 30 by the spec's choice (log 6): true of this spec, not necessarily
of the repository (93_implementation_defined.md U3). -/
def Obligations.RecordsRoundTripAndV1DoesNot : Prop :=
  (∀ (version : BitVec 32) (wf : WaveFormat) (bps : SampleBits), 2 ≤ version.toInt → wf.bitsPerSample = some bps →
    ∃ word, mwfEncode wf = .ok word ∧ mwfDecode version word = .ok (wf, rawBit bps) ∧
      word.extractLsb' 31 1 = rawBit bps) ∧
  (∀ word : MwfWord, ∃ U : Lane, decResult 1 word = .ok U ∧
    ∀ (s : State) (rest : List PortEvent), s.inputs = .command (cmdWord 0x11#8 U) :: rest →
      step s = .next { s with inputs := rest, responses := s.responses ++ [rspWord (.fault .fveRange) 0] }) ∧
  (∀ (version : BitVec 32) (word : MwfWord), 2 ≤ version.toInt →
    ∃ U1 U2 : Lane, decResult 1 word = .ok U1 ∧ decResult version word = .ok U2 ∧ U1 ≠ U2) ∧
  decResult 1 0x410AC444#32 = .ok 0x01000400AC440200#64 ∧
  encResult 0 2 44100 4 16 = .ok 0x82158888#64 ∧ encResult 0 2 44100 4 8 = .ok 0x02158888#64

/-! ### 60_exceptions.md: faults -/

/-- 60_exceptions.md R82: every command word that is accepted gets exactly one response, `OK` or one fault code. -/
def Obligations.EveryCommandGetsExactlyOneResponse : Prop :=
  ∀ (s : State) (cmd : CmdWord) (rest : List PortEvent), s.inputs = .command cmd :: rest →
    ∃ t status data, step s = .next t ∧ t.inputs = rest ∧ t.responses = s.responses ++ [rspWord status data]

/-- 60_exceptions.md R83: a fault writes no state, returns no data, and the rest of the run is as if the command had not been
issued. -/
def Obligations.FaultingCommandLeavesTheRunUnchanged : Prop :=
  ∀ (s t : State) (cmd : CmdWord) (rest : List PortEvent) (rsp : RspWord), s.inputs = .command cmd :: rest →
    step s = .next t → t.responses = s.responses ++ [rsp] → statusOf rsp ≠ 0x00#8 →
    dataOf rsp = 0#64 ∧ t.rem = s.rem ∧ t.inputs = rest ∧
    ∀ n : Nat, ∃ u later,
      runSteps n { s with inputs := rest } = .next u ∧
      u.responses = s.responses ++ later ∧
      runSteps n t = .next { u with responses := s.responses ++ rsp :: later }

/-- 60_exceptions.md R84: the numbers, which command can produce each, and that the four reachable ones are produced. -/
def Obligations.StatusCodesAreProducedAsTabled : Prop :=
  (Status.number .ok = 0x00#8 ∧ Status.number (.fault .illegal) = 0x01#8 ∧
    Status.number (.fault .fveVersion) = 0x10#8 ∧ Status.number (.fault .fveCodec) = 0x11#8 ∧
    Status.number (.fault .fveBps) = 0x12#8 ∧ Status.number (.fault .fveRange) = 0x13#8 ∧
    Status.number (.fault .heuristic) = 0x20#8) ∧
  (∀ code : FaultCode, (Status.number (.fault code)).extractLsb' 4 4 =
    match code.kind with | .interface => 0x0#4 | .formatValidationError => 0x1#4 | .heuristicSuspicion => 0x2#4) ∧
  (∀ (s t : State) (cmd : CmdWord) (rest : List PortEvent) (rsp : RspWord), s.inputs = .command cmd :: rest →
    step s = .next t → t.responses = s.responses ++ [rsp] →
    statusOf rsp = 0x00#8 ∨ statusOf rsp = 0x01#8 ∨ (statusOf rsp = 0x10#8 ∧ opOf cmd = 0x10#8) ∨
      (statusOf rsp = 0x13#8 ∧ opOf cmd = 0x11#8)) ∧
  (∀ status ∈ [0x00#8, 0x01#8, 0x10#8, 0x13#8], ∃ cmd : CmdWord, ∀ (s : State) (rest : List PortEvent),
    s.inputs = .command cmd :: rest → ∃ t rsp, step s = .next t ∧ t.responses = s.responses ++ [rsp] ∧ statusOf rsp = status)

/-- 60_exceptions.md R85, 30_encoding.md R38: ILLEGAL is the answer exactly to the words that are no command, and it changes
nothing. -/
def Obligations.IllegalIsAnsweredExactlyToNonCommands : Prop :=
  ∀ (s : State) (cmd : CmdWord) (rest : List PortEvent), s.inputs = .command cmd :: rest →
    (step s = .next { s with inputs := rest, responses := s.responses ++ [rspWord (.fault .illegal) 0] } ↔
      (cmd.extractLsb' 64 8 ∉ [0x01#8, 0x02#8, 0x03#8, 0x04#8, 0x08#8, 0x10#8, 0x11#8] ∨
       (cmd.extractLsb' 64 8 ∈ [0x01#8, 0x03#8, 0x04#8] ∧ cmd.extractLsb' 0 64 ≠ 0#64) ∨
       (cmd.extractLsb' 64 8 = 0x02#8 ∧ cmd.extractLsb' 8 56 ≠ 0#56) ∨
       (cmd.extractLsb' 64 8 = 0x08#8 ∧ (cmd.extractLsb' 38 26 ≠ 0#26 ∨ 32 < (cmd.extractLsb' 32 6).toNat)) ∨
       (cmd.extractLsb' 64 8 = 0x11#8 ∧ cmd.extractLsb' 58 6 ≠ 0#6)))

/-- The invariant every step keeps: each response emitted so far is `OK`, or one of the three reachable faults with no data; so
`FVE_CODEC`, `FVE_BPS` and `HEURISTIC` never appear (60_exceptions.md section 1). -/
def Obligations.EveryStepKeepsResponsesLegal : Prop :=
  ∀ s t : State, ResponsesLegal s → step s = .next t → ResponsesLegal t

/-- The invariant holds at reset. -/
def Obligations.ResetResponsesAreLegal : Prop :=
  ResponsesLegal State.reset

/-! ### Steps and runs -/

/-- A step runs the decoded command: the word leaves the inputs, and the rest is `exec` of the command. -/
def Obligations.StepRunsTheDecodedCommand : Prop :=
  ∀ (s : State) (cmd : CmdWord) (rest : List PortEvent) (i : Instr), s.inputs = .command cmd :: rest →
    decode cmd = .ok i → step s = exec i { s with inputs := rest }

/-- 70_reset_and_hazards.md section 6: a run of `k` events is over after `k` steps, with one response per command in the order of the
commands. Reading it as `k` steps of the model is log 4; that resets after the last command are steps of the run too is log 16. -/
def Obligations.RunAnswersEveryCommandInOrder : Prop :=
  (∀ s : State, ∃ t later,
    runSteps s.inputs.length s = .next t ∧ t.inputs = [] ∧
    t.responses = s.responses ++ later ∧ later.length = commandCount s.inputs) ∧
  ∀ (s : State) (before after : List PortEvent), s.inputs = before ++ after →
    ∃ t u later, runSteps before.length s = .next t ∧ t.inputs = after ∧
      runSteps (before.length + after.length) s = .next u ∧
      u.responses = t.responses ++ later ∧ later.length = commandCount after

/-- 20_memory.md section 4: `REM` after any run holds exactly the bytes absorbed since the last `CRC.INIT` or reset, in order,
continuing the message the run started with. Resets after the last command are part of the run here (log 16). -/
def Obligations.RemHoldsExactlyTheAbsorbedBytes : Prop :=
  ∀ (s : State) (message : List Byte), s.rem = crcUpdate crc16b 0xFFFF message →
    ∃ t, runSteps s.inputs.length s = .next t ∧
      t.rem = crcUpdate crc16b 0xFFFF (absorbed message s.inputs)
end

