-- ==== Sys2Proof/Laws/BitRev.lean ====
section
/-! SUPPORT. The bits of a reversal. -/

namespace Sys2Proof.Machine

/-- After `i` rounds the loop holds the low `i` bits of the value, mirrored into the top `i` places of the width. -/
theorem reverseLoop_testBit (value n : Nat) : ∀ i, i ≤ n → ∀ j,
    (reverseLoop value n i).testBit j = (decide (n - i ≤ j ∧ j < n) && value.testBit (n - 1 - j))
  | 0, _, j => by
    simp only [reverseLoop, Nat.zero_testBit]
    symm
    simp only [Bool.and_eq_false_iff, decide_eq_false_iff_not]
    omega
  | i + 1, h, j => by
    have ih := reverseLoop_testBit value n i (by omega) j
    simp only [reverseLoop]
    by_cases hj : j = n - 1 - i
    · subst hj
      have e : n - 1 - (n - 1 - i) = i := by omega
      have h1 : n - (i + 1) ≤ n - 1 - i ∧ n - 1 - i < n := by omega
      have h2 : ¬(n - i ≤ n - 1 - i ∧ n - 1 - i < n) := by omega
      rw [e] at ih ⊢
      split <;> rename_i hv
      · simp [Nat.testBit_or, h1, hv, Nat.testBit_shiftLeft]
      · rw [ih]
        simp [hv]
    · have e : decide (n - (i + 1) ≤ j ∧ j < n) = decide (n - i ≤ j ∧ j < n) := by
        apply decide_eq_decide.mpr
        omega
      rw [e]
      split
      · have : (1 <<< (n - 1 - i)).testBit j = false := by
          rw [Nat.one_shiftLeft, Nat.testBit_two_pow]
          simp
          omega
        rw [Nat.testBit_or, ih]
        simp [this]
      · exact ih

theorem reverseBits_testBit (value n j : Nat) :
    (reverseBits value n).testBit j = (decide (j < n) && value.testBit (n - 1 - j)) := by
  rw [reverseBits, reverseLoop_testBit value n n le_rfl]
  simp

theorem reverseBits_lt_two_pow (value n : Nat) : reverseBits value n < 2 ^ n := by
  apply Nat.lt_pow_two_of_testBit
  intro i hi
  rw [reverseBits_testBit]
  simp
  omega

theorem reverseWord_toNat {w : Nat} (v : BitVec w) : (reverseWord v).toNat = reverseBits v.toNat w := by
  simp [reverseWord, Nat.mod_eq_of_lt (reverseBits_lt_two_pow _ _)]

theorem reverseWord_getLsbD {w : Nat} (v : BitVec w) (j : Nat) :
    (reverseWord v).getLsbD j = (decide (j < w) && v.getLsbD (w - 1 - j)) := by
  rw [BitVec.getLsbD, reverseWord_toNat, reverseBits_testBit]
  rfl

end Sys2Proof.Machine
end

