-- ==== Sys2Proof/Laws/Crc.lean ====
section
/-! SUPPORT. The bit step without its masks, and additive functions on words, from which the laws of the byte step follow. -/

namespace Sys2Proof.Machine

/-- The bit step: shift, and add the polynomial when the bit shifted out differs from the data bit. -/
theorem crcBit_eq_shift_xor {w : Nat} (P : CrcParams w) (rem : BitVec w) (bit : Bool) :
    crcBit P rem bit = (rem <<< 1) ^^^ (if rem.getLsbD (w - 1) ≠ bit then P.poly else 0#w) := by
  have hw := P.width_pos
  have htop : rem &&& (1#w <<< (w - 1)) = if rem.getLsbD (w - 1) then 1#w <<< (w - 1) else 0#w := by
    apply BitVec.eq_of_getLsbD_eq
    intro i hi
    by_cases h : i = w - 1
    · subst h
      cases hr : rem.getLsbD (w - 1) <;> simp [hr]
    · have : (1#w <<< (w - 1)).getLsbD i = false := by
        simp
        omega
      cases hr : rem.getLsbD (w - 1) <;> simp only [BitVec.getLsbD_and, this] <;> simp [this]
  have hne : (1#w <<< (w - 1)) ≠ 0#w := by
    intro h
    have := congrArg (BitVec.getLsbD · (w - 1)) h
    simp at this
    omega
  simp only [crcBit, htop]
  cases hr : rem.getLsbD (w - 1) <;> cases bit <;> simp [hne]

/-- An additive function of words that vanishes on every one-bit word vanishes. -/
theorem additive_eq_zero {n m : Nat} (f : BitVec n → BitVec m) (hadd : ∀ a b, f (a ^^^ b) = f a ^^^ f b)
    (hbit : ∀ i : Fin n, f (BitVec.twoPow n i) = 0#m) (x : BitVec n) : f x = 0#m := by
  have h0 : f 0#n = 0#m := by
    have := hadd 0#n 0#n
    simpa using this
  have key : ∀ k, k ≤ n → ∀ x : BitVec n, (∀ i, k ≤ i → x.getLsbD i = false) → f x = 0#m := by
    intro k
    induction k with
    | zero =>
      intro _ x hx
      have : x = 0#n := by
        apply BitVec.eq_of_getLsbD_eq
        intro i _
        simpa using hx i (by omega)
      rw [this, h0]
    | succ k ih =>
      intro hk x hx
      by_cases hbit' : x.getLsbD k = true
      · have e : x = (x ^^^ BitVec.twoPow n k) ^^^ BitVec.twoPow n k := by simp
        rw [e, hadd, hbit ⟨k, by omega⟩, ih (by omega)]
        · simp
        · intro i hi
          by_cases hik : i = k
          · subst hik
            simp [hbit', BitVec.getLsbD_twoPow]
            omega
          · rw [BitVec.getLsbD_xor, hx i (by omega), BitVec.getLsbD_twoPow]
            simp
            omega
      · apply ih (by omega)
        intro i hi
        by_cases hik : i = k
        · subst hik
          simpa using hbit'
        · exact hx i (by omega)
  exact key n le_rfl x (fun i hi => BitVec.getLsbD_of_ge x i hi)

/-- Two additive functions of words that agree on every one-bit word agree. -/
theorem additive_ext {n m : Nat} (f g : BitVec n → BitVec m) (hf : ∀ a b, f (a ^^^ b) = f a ^^^ f b)
    (hg : ∀ a b, g (a ^^^ b) = g a ^^^ g b) (hbit : ∀ i : Fin n, f (BitVec.twoPow n i) = g (BitVec.twoPow n i))
    (x : BitVec n) : f x = g x :=
  BitVec.xor_eq_zero_iff.mp
    (additive_eq_zero (fun x => f x ^^^ g x)
      (by
        intro a b
        simp only [hf, hg]
        ac_rfl)
      (by
        intro i
        simp [hbit]) x)

end Sys2Proof.Machine
end

