-- ==== Sys2Proof/Laws/Slices.lean ====
section
/-! SUPPORT. Slices of words that are built by concatenation. A goal about a slice of a nested `++` is taken apart by
`refine (slice_append_high (by decide)).trans ?_`, one part at a time from the low end. -/

namespace Sys2Proof

theorem slice_append_high {v w : Nat} {x : BitVec v} {y : BitVec w} {start len : Nat} (h : w ≤ start) :
    (x ++ y).extractLsb' start len = x.extractLsb' (start - w) len :=
  BitVec.extractLsb'_append_eq_of_le h

theorem slice_append_low {v w : Nat} {x : BitVec v} {y : BitVec w} {start len : Nat} (h : start + len ≤ w) :
    (x ++ y).extractLsb' start len = y.extractLsb' start len :=
  BitVec.extractLsb'_append_eq_of_add_le h

theorem slice_all {w : Nat} {x : BitVec w} : x.extractLsb' 0 w = x :=
  BitVec.extractLsb'_eq_self

/-- Two neighbouring slices are one. -/
theorem slice_glue {n : Nat} (x : BitVec n) (start low high start2 : Nat) (h : start2 = start + low) :
    x.extractLsb' start2 high ++ x.extractLsb' start low = x.extractLsb' start (high + low) :=
  BitVec.extractLsb'_append_extractLsb'_eq_extractLsb' h

theorem slice_slice {n : Nat} (x : BitVec n) (start len start' len' : Nat) (h : start' + len' ≤ len) :
    (x.extractLsb' start len).extractLsb' start' len' = x.extractLsb' (start + start') len' := by
  apply BitVec.eq_of_getLsbD_eq
  intro i hi
  have : start' + i < len := by omega
  simp only [BitVec.getLsbD_extractLsb']
  simp [hi, this, Nat.add_assoc]

theorem opOf_cmdWord (op : BitVec 8) (arg : Lane) : opOf (cmdWord op arg) = op :=
  (slice_append_high (by decide)).trans slice_all

theorem argOf_cmdWord (op : BitVec 8) (arg : Lane) : argOf (cmdWord op arg) = arg :=
  (slice_append_low (by decide)).trans slice_all

theorem cmdWord_opOf_argOf (cmd : CmdWord) : cmdWord (opOf cmd) (argOf cmd) = cmd :=
  (slice_glue cmd 0 64 8 64 rfl).trans slice_all

/-- A slice of `arg` is the same slice of the word. -/
theorem slice_argOf (cmd : CmdWord) (start len : Nat) (h : start + len ≤ 64) :
    (argOf cmd).extractLsb' start len = cmd.extractLsb' start len := by
  rw [argOf, slice_slice _ _ _ _ _ h, Nat.zero_add]

/-- Masking with a run of ones tests the slice under it. -/
theorem and_mask_eq_zero_iff (arg mask : Lane) (start len : Nat)
    (hm : ∀ i : Fin 64, mask.getLsbD i = decide (start ≤ i.val ∧ i.val < start + len)) :
    arg &&& mask = 0 ↔ arg.extractLsb' start len = 0#len := by
  constructor
  · intro h
    apply BitVec.eq_of_getLsbD_eq
    intro i hi
    rw [BitVec.getLsbD_extractLsb', BitVec.getLsbD_zero]
    by_cases h64 : start + i < 64
    · have hb := congrArg (BitVec.getLsbD · (start + i)) h
      simp only [BitVec.getLsbD_and] at hb
      rw [hm ⟨start + i, h64⟩] at hb
      simpa [hi] using hb
    · rw [BitVec.getLsbD_of_ge _ _ (by omega)]
      simp
  · intro h
    apply BitVec.eq_of_getLsbD_eq
    intro i hi
    rw [BitVec.getLsbD_and, hm ⟨i, hi⟩]
    by_cases hr : start ≤ i ∧ i < start + len
    · have hb := congrArg (BitVec.getLsbD · (i - start)) h
      simp only [BitVec.getLsbD_extractLsb'] at hb
      rw [show start + (i - start) = i by omega] at hb
      have : arg.getLsbD i = false := by simpa [show i - start < len by omega] using hb
      simp [this]
    · simp [hr]

namespace Machine

theorem unpackedBits_codec8 (u : UnpackedRecord) : (unpackedBits u).extractLsb' 0 8 = u.codec8 :=
  (slice_append_low (by decide)).trans slice_all

theorem unpackedBits_channels8 (u : UnpackedRecord) : (unpackedBits u).extractLsb' 8 8 = u.channels8 := by
  repeat refine (slice_append_high (by decide)).trans ?_
  exact (slice_append_low (by decide)).trans slice_all

theorem unpackedBits_rate24 (u : UnpackedRecord) : (unpackedBits u).extractLsb' 16 24 = u.rate24 := by
  repeat refine (slice_append_high (by decide)).trans ?_
  exact (slice_append_low (by decide)).trans slice_all

theorem unpackedBits_align8 (u : UnpackedRecord) : (unpackedBits u).extractLsb' 40 8 = u.align8 := by
  repeat refine (slice_append_high (by decide)).trans ?_
  exact (slice_append_low (by decide)).trans slice_all

theorem unpackedBits_bps8 (u : UnpackedRecord) : (unpackedBits u).extractLsb' 48 8 = u.bps8 := by
  repeat refine (slice_append_high (by decide)).trans ?_
  exact (slice_append_low (by decide)).trans slice_all

theorem unpackedBits_bpsRaw (u : UnpackedRecord) : (unpackedBits u).extractLsb' 56 1 = u.bpsRaw := by
  repeat refine (slice_append_high (by decide)).trans ?_
  exact (slice_append_low (by decide)).trans slice_all

theorem unpackedBits_bpsValid (u : UnpackedRecord) : (unpackedBits u).extractLsb' 57 1 = u.bpsValid := by
  repeat refine (slice_append_high (by decide)).trans ?_
  exact (slice_append_low (by decide)).trans slice_all

theorem unpackedBits_top (u : UnpackedRecord) : (unpackedBits u).extractLsb' 58 6 = 0#6 := by
  repeat refine (slice_append_high (by decide)).trans ?_
  exact slice_all

end Machine
end Sys2Proof
end

