-- ==== Sys2Proof/Laws/Decode.lean ====
section
/-! SUPPORT. The opcode map and the decoder's form on an assigned opcode. -/

namespace Sys2Proof

theorem opcodeOf_code (op : Opcode) : opcodeOf op.code = some op := by
  cases op <;> rfl

theorem opcodeOf_eq_some_iff (b : BitVec 8) (op : Opcode) : opcodeOf b = some op ↔ b = op.code := by
  constructor
  · revert b
    cases op <;> decide
  · rintro rfl
    exact opcodeOf_code op

theorem opcode_operandsOf (op : Opcode) (arg : Lane) : (operandsOf op arg).opcode = op := by
  cases op <;> rfl

/-- Well-formedness of what the decoder assembles is the bound of `REV` alone. -/
theorem wellFormed_operandsOf (op : Opcode) (arg : Lane) :
    (operandsOf op arg).wellFormed = true ↔ (op = .rev → (arg.extractLsb' 32 6).toNat ≤ 32) := by
  by_cases h : op = .rev
  · subst h
    exact ⟨fun h _ => of_decide_eq_true h, fun h => decide_eq_true (h rfl)⟩
  · cases op <;> simp_all [operandsOf, Instr.wellFormed]

/-- The decoder on an assigned opcode: the last two checks. -/
theorem decode_of_opcode {cmd : CmdWord} {op : Opcode} (h : opcodeOf (opOf cmd) = some op) :
    decode cmd =
      if argOf cmd &&& mbzMask op ≠ 0 then .error .mustBeZeroBit
      else if (operandsOf op (argOf cmd)).wellFormed then .ok (operandsOf op (argOf cmd))
      else .error .revCount := by
  simp only [decode, h]

end Sys2Proof
end

