-- ==== Sys2Proof/Laws/Mwf.lean ====
section
/-! SUPPORT. The packed V2 word as a concatenation of its fields. -/

namespace Sys2Proof.Machine

/-- The five V2 fields tile the word, so OR of the shifted fields is their concatenation. -/
theorem packed_eq_append (c : BitVec 2) (h : BitVec 3) (r : BitVec 18) (a : BitVec 8) (b : BitVec 1) :
    (c.setWidth 32 ||| h.setWidth 32 <<< 2 ||| r.setWidth 32 <<< 5 ||| a.setWidth 32 <<< 23 ||| b.setWidth 32 <<< 31)
      = b ++ a ++ r ++ h ++ c := by
  have key : (b ++ a ++ r ++ h ++ c).setWidth 32 = b ++ a ++ r ++ h ++ c := BitVec.setWidth_eq _
  rw [← key]
  apply BitVec.eq_of_getLsbD_eq
  intro i hi
  simp only [BitVec.getLsbD_or, BitVec.getLsbD_shiftLeft, BitVec.getLsbD_setWidth, BitVec.getLsbD_append]
  have e9 : i - 2 - 3 = i - 5 := by omega
  have e13 : i - 5 - 18 = i - 23 := by omega
  rcases (by omega : i < 2 ∨ (2 ≤ i ∧ i < 5) ∨ (5 ≤ i ∧ i < 23) ∨ (23 ≤ i ∧ i < 31) ∨ i = 31) with
    h1 | h1 | h1 | h1 | h1
  · have e1 : i < 5 := by omega
    have e2 : i < 23 := by omega
    have e3 : i < 31 := by omega
    simp [hi, h1, e1, e2, e3, -BitVec.getLsbD_eq_getElem]
  · have e2 : i < 23 := by omega
    have e3 : i < 31 := by omega
    have e4 : ¬i < 2 := by omega
    have e5 : i - 2 < 3 := by omega
    have e6 : i - 2 < 32 := by omega
    simp [hi, h1, e2, e3, e4, e5, e6, -BitVec.getLsbD_eq_getElem]
  · have e3 : i < 31 := by omega
    have e4 : ¬i < 2 := by omega
    have e5 : ¬i - 2 < 3 := by omega
    have e6 : i - 5 < 32 := by omega
    have e7 := BitVec.getLsbD_of_ge c i (by omega)
    have e8 := BitVec.getLsbD_of_ge h (i - 2) (by omega)
    have e10 : i - 5 < 18 := by omega
    have e11 : ¬i < 5 := by omega
    simp [hi, h1, e3, e4, e5, e6, e7, e8, e9, e10, e11, -BitVec.getLsbD_eq_getElem]
  · have e3 : ¬i < 23 := by omega
    have e4 : ¬i < 2 := by omega
    have e5 : ¬i - 2 < 3 := by omega
    have e6 : i - 23 < 32 := by omega
    have e7 := BitVec.getLsbD_of_ge c i (by omega)
    have e8 := BitVec.getLsbD_of_ge h (i - 2) (by omega)
    have e10 : ¬i - 5 < 18 := by omega
    have e11 : ¬i < 5 := by omega
    have e12 := BitVec.getLsbD_of_ge r (i - 5) (by omega)
    have e14 : i - 23 < 8 := by omega
    simp [hi, h1, e3, e4, e5, e6, e7, e8, e9, e10, e11, e12, e13, e14, -BitVec.getLsbD_eq_getElem]
  · subst h1
    simp [BitVec.getLsbD_of_ge, -BitVec.getLsbD_eq_getElem]

end Sys2Proof.Machine
end

