-- ==== Sys2Proof/Laws/State.lean ====
section
/-! SUPPORT. What each update of the state leaves in each field. -/

namespace Sys2Proof.Machine

@[simp] theorem writeRem_toBlock (v : BitVec 16) (s : State) : (writeRem v s).toBlock = { rem := v } := rfl
@[simp] theorem writeRem_rem (v : BitVec 16) (s : State) : (writeRem v s).rem = v := rfl
@[simp] theorem writeRem_inputs (v : BitVec 16) (s : State) : (writeRem v s).inputs = s.inputs := rfl
@[simp] theorem writeRem_responses (v : BitVec 16) (s : State) : (writeRem v s).responses = s.responses := rfl
@[simp] theorem writeRem_self (s : State) : writeRem s.rem s = s := rfl

@[simp] theorem emit_toBlock (rsp : RspWord) (s : State) : (emit rsp s).toBlock = s.toBlock := rfl
@[simp] theorem emit_rem (rsp : RspWord) (s : State) : (emit rsp s).rem = s.rem := rfl
@[simp] theorem emit_inputs (rsp : RspWord) (s : State) : (emit rsp s).inputs = s.inputs := rfl
@[simp] theorem emit_responses (rsp : RspWord) (s : State) : (emit rsp s).responses = s.responses ++ [rsp] := rfl

@[simp] theorem resetBlock_toBlock (s : State) : (resetBlock s).toBlock = { rem := 0xFFFF } := rfl
@[simp] theorem resetBlock_rem (s : State) : (resetBlock s).rem = 0xFFFF := rfl
@[simp] theorem resetBlock_inputs (s : State) : (resetBlock s).inputs = s.inputs := rfl
@[simp] theorem resetBlock_responses (s : State) : (resetBlock s).responses = s.responses := rfl

@[simp] theorem present_toBlock (es : List PortEvent) (s : State) : (s.present es).toBlock = s.toBlock := rfl
@[simp] theorem present_rem (es : List PortEvent) (s : State) : (s.present es).rem = s.rem := rfl
@[simp] theorem present_inputs (es : List PortEvent) (s : State) : (s.present es).inputs = s.inputs ++ es := rfl
@[simp] theorem present_responses (es : List PortEvent) (s : State) : (s.present es).responses = s.responses := rfl

@[simp] theorem presentFirst_toBlock (cmd : CmdWord) (s : State) : (s.presentFirst cmd).toBlock = s.toBlock := rfl
@[simp] theorem presentFirst_rem (cmd : CmdWord) (s : State) : (s.presentFirst cmd).rem = s.rem := rfl
@[simp] theorem presentFirst_inputs (cmd : CmdWord) (s : State) :
    (s.presentFirst cmd).inputs = .command cmd :: s.inputs := rfl
@[simp] theorem presentFirst_responses (cmd : CmdWord) (s : State) : (s.presentFirst cmd).responses = s.responses := rfl

end Sys2Proof.Machine
end

