-- ==== Sys2Proof/Laws/Ops.lean ====
section
/-! SUPPORT. What each shared operation can do, said once. -/

namespace Sys2Proof.Machine

/-- A response: one word is appended and nothing else changes. -/
theorem respond_eq_next (data : Lane) (s : State) : respond data s = .next (emit (rspWord .ok data) s) := rfl

/-- A fault: its code and zero data are appended and nothing else changes. -/
theorem raise_eq_next (code : FaultCode) (s : State) : raise code s = .next (emit (rspWord (.fault code) 0) s) := rfl

/-- An answer depends on the state only through the responses it is appended to. -/
theorem answer_emits (result : Except FaultCode Lane) : ∃ rsp, ∀ s, answer result s = .next (emit rsp s) := by
  cases result with
  | ok data => exact ⟨_, fun _ => rfl⟩
  | error code => exact ⟨_, fun _ => rfl⟩

theorem accept_of_nil {s : State} (h : s.inputs = []) : s.accept = none := by
  simp only [State.accept, h]

theorem accept_of_cons {s : State} {e : PortEvent} {rest : List PortEvent} (h : s.inputs = e :: rest) :
    s.accept = some (e, { s with inputs := rest }) := by
  simp only [State.accept, h]

end Sys2Proof.Machine
end

