-- ==== Sys2Proof/Laws/PerInstr.lean ====
section
/-! SUPPORT. One family of statements about every command as syntax: the opcode its word carries is its own (30_encoding.md R33,
R44). -/

namespace Sys2Proof.Laws.EncodedOpcode

/-- The word of a command carries the command's opcode number, and the decoder's map reads the opcode back from it. -/
def Statement (i : Instr) : Prop :=
  opOf (encode i) = i.opcode.code ∧ opcodeOf (opOf (encode i)) = some i.opcode

theorem of_encode (i : Instr) : Statement i := by
  have h : opOf (encode i) = i.opcode.code := opOf_cmdWord _ _
  exact ⟨h, by rw [h, opcodeOf_code]⟩

theorem crcInit : Statement .crcInit := of_encode _

theorem crcByte (d : Byte) : Statement (.crcByte d) := of_encode _

theorem crcRead : Statement .crcRead := of_encode _

theorem crcSum : Statement .crcSum := of_encode _

theorem rev (n : BitVec 6) (value : BitVec 32) : Statement (.rev n value) := of_encode _

theorem mwfDec (version : BitVec 32) (word : MwfWord) : Statement (.mwfDec version word) := of_encode _

theorem mwfEnc (codec8 channels8 : BitVec 8) (rate24 : BitVec 24) (align8 bps8 : BitVec 8) (ignored : BitVec 2) :
    Statement (.mwfEnc codec8 channels8 rate24 align8 bps8 ignored) := of_encode _

end Sys2Proof.Laws.EncodedOpcode
end

