-- ==== Sys2Proof/Laws/Step.lean ====
section
/-! SUPPORT. What a command and a step can do, and how runs compose. -/

namespace Sys2Proof.Machine

/-- All a command can do: write `REM` (perhaps with its own value) and emit one response. -/
theorem exec_emits (i : Instr) (s : State) :
    ∃ v status data, exec i s = .next (emit (rspWord status data) (writeRem v s)) := by
  have hanswer : ∀ result : Except FaultCode Lane,
      ∃ v status data, answer result s = .next (emit (rspWord status data) (writeRem v s)) := by
    intro result
    cases result with
    | ok data => exact ⟨s.rem, .ok, data, rfl⟩
    | error code => exact ⟨s.rem, .fault code, 0, rfl⟩
  cases i with
  | crcInit => exact ⟨_, .ok, _, rfl⟩
  | crcByte d => exact ⟨_, .ok, _, rfl⟩
  | crcRead => exact ⟨s.rem, .ok, _, rfl⟩
  | crcSum => exact ⟨s.rem, .ok, _, rfl⟩
  | rev n value =>
    by_cases h : Config.revMax < n.toNat
    · exact ⟨s.rem, .fault .illegal, 0, by simp only [exec, execRev, if_pos h]; rfl⟩
    · exact ⟨s.rem, .ok, _, by simp only [exec, execRev, if_neg h]; rfl⟩
  | mwfDec version word => exact hanswer _
  | mwfEnc codec8 channels8 rate24 align8 bps8 ignored => exact hanswer _

/-- A step on a presented command word. -/
theorem step_of_command {s : State} {cmd : CmdWord} {rest : List PortEvent} (h : s.inputs = .command cmd :: rest) :
    step s =
      match decode cmd with
      | .ok i => exec i { s with inputs := rest }
      | .error _ => raise .illegal { s with inputs := rest } := by
  cases hd : decode cmd <;> simp only [step, accept_of_cons h, hd]

/-- The block's answer to one event is read off the step that takes it. -/
theorem react_of_step {e : PortEvent} {b : Block} {t : State}
    (h : step { toBlock := b, inputs := [e], responses := [] } = .next t) : Block.react e b = (t.toBlock, t.responses.head?) := by
  simp only [Block.react, h]

@[simp] theorem react_reset (b : Block) : Block.react .reset b = ({ rem := 0xFFFF }, none) := rfl

@[simp] theorem runSteps_zero (s : State) : runSteps 0 s = .next s := rfl

theorem runSteps_succ {n : Nat} {s t : State} (h : step s = .next t) : runSteps (n + 1) s = runSteps n t := by
  have h' : Sys2Proof.core.step s = .next t := h
  simp only [runSteps, Host.Core.run, h']
  rfl

end Sys2Proof.Machine
end

