-- ==== Sys2Proof/Tests/Slice0.lean ====
section
/-! SUPPORT. Small tests. Expected values come from the vectors of 95_test_vectors.md (their ids stand in the docstrings) or from the
encodings of 30_encoding.md written out by hand. A theorem named `test_witness_<Name>` shows concrete values that meet the
hypotheses of the obligation `<Name>` together, at the boundaries of each clause. -/

namespace Sys2Proof.Tests
open Sys2Proof.Machine

/-- A state with a remainder and the events the block accepts next. -/
def start (rem : BitVec 16) (inputs : List PortEvent) : State := { rem := rem, inputs := inputs, responses := [] }

/-- The state an outcome answers, if it answers one. -/
def nextOf (o : Host.Outcome State Fault Refusal) : Option State :=
  match o with
  | .next t => some t
  | .fault _ => none
  | .refused _ => none

/-- The remainder and the responses after one step on one command word. -/
def answered (rem : BitVec 16) (cmd : CmdWord) : Option (BitVec 16 × List RspWord) :=
  (nextOf (step (start rem [.command cmd]))).map fun t => (t.rem, t.responses)

/-- The decoded command, if the word is one. -/
def decoded (cmd : CmdWord) : Option Instr :=
  match decode cmd with
  | .ok i => some i
  | .error _ => none

/-- The decoder's refusal, if it refuses. -/
def refusalOf (cmd : CmdWord) : Option DecodeRefusal :=
  match decode cmd with
  | .ok _ => none
  | .error r => some r

/-! ### WellFormed: every check refuses an ill-formed term -/

theorem test_wellFormed_refuses_rev_33 : Instr.wellFormed (.rev 33 1) = false ∧ Instr.wellFormed (.rev 32 1) = true := by decide

theorem test_wellFormed_refuses_records :
    ParamRecord.wellFormed ⟨0, 0, 0, false, false, 0⟩ = false ∧
    ParamRecord.wellFormed ⟨8, 256, 0, false, false, 0⟩ = false ∧
    ParamRecord.wellFormed ⟨8, 7, 256, false, false, 0⟩ = false ∧
    ParamRecord.wellFormed ⟨8, 7, 0, false, false, 256⟩ = false ∧
    ParamRecord.wellFormed ⟨8, 255, 255, true, true, 255⟩ = true := by decide

/-! ### Decoding: words written out bit by bit from 30_encoding.md R33, R34, R41 -/

/-- `op` 00000001, `arg` all zero. -/
theorem test_decode_crcInit :
    decoded (0b00000001#8 ++ 0#64) = some .crcInit := by decide

/-- `op` 00000010, `arg[63:8]` zero, `d` 00110001. -/
theorem test_decode_crcByte :
    decoded (0b00000010#8 ++ 0#56 ++ 0b00110001#8) = some (.crcByte 0x31) := by decide

theorem test_decode_crcRead : decoded (0b00000011#8 ++ 0#64) = some .crcRead := by decide

theorem test_decode_crcSum : decoded (0b00000100#8 ++ 0#64) = some .crcSum := by decide

/-- `op` 00001000, `arg[63:38]` zero, `n` 010000, `value` in bits 31:0. -/
theorem test_decode_rev :
    decoded (0b00001000#8 ++ 0#26 ++ 0b010000#6 ++ 0b00000000000000000001000000100001#32) = some (.rev 16 0x1021) := by decide

/-- `op` 00010000, `version` in `arg[63:32]`, `word` in `arg[31:0]`. -/
theorem test_decode_mwfDec :
    decoded (0b00010000#8 ++ 0b11111111111111111111111111010011#32 ++ 0b10000010000101011000100010001000#32) =
      some (.mwfDec (BitVec.ofInt 32 (-45)) 0x82158888) := by decide

/-- `op` 00010001, then `U`: bits 63:58 zero, 57:56, `bps8`, `align8`, `rate24`, `channels8`, `codec8`. -/
theorem test_decode_mwfEnc :
    decoded (0b00010001#8 ++ 0#6 ++ 0b01#2 ++ 0b00010000#8 ++ 0b01000110#8 ++ 0b000000001010110001000100#24 ++
      0b00000010#8 ++ 0b00000011#8) = some (.mwfEnc 3 2 44100 70 16 1) := by decide

/-- X7, X11, X9; X2, X3, V32; V30: one refusal of each kind and its neighbours. -/
theorem test_decode_refuses :
    [0x000000000000000000, 0xFFFFFFFFFFFFFFFFFF, 0x090000000000000000].map refusalOf =
      [some .unassignedOpcode, some .unassignedOpcode, some .unassignedOpcode] ∧
    [0x018000000000000000, 0x020000000000000131, 0x0800000048000000F0, 0x110400000000000000].map refusalOf =
      [some .mustBeZeroBit, some .mustBeZeroBit, some .mustBeZeroBit, some .mustBeZeroBit] ∧
    [0x080000002100000001, 0x080000003F00000000].map refusalOf = [some .revCount, some .revCount] := by decide

/-- The words of 95_test_vectors.md for the same commands, from the encoder (V29, D42, N1). -/
theorem test_encode :
    encode (.rev 32 0x82158888) = 0x080000002082158888 ∧ encode (.mwfDec (-1) 0x82158888) = 0x10FFFFFFFF82158888 ∧
    encode (.mwfEnc 0 2 44100 4 16 0) = 0x1100100400AC440200 ∧ encode (.crcByte 0x31) = 0x020000000000000031 := by decide

/-- The host's two entries, on the table's numbering; a number with a bit above bit 71 is no word. -/
theorem test_tableWord :
    decodeTableWord 72 0x020000000000000031 = some (.crcByte 0x31) ∧ decodeTableWord 80 0x01000000000000000000 = none ∧
    decodeTableWord 72 0x080000002100000001 = none ∧
    ((nextOf (step (State.reset.withFetchWord 72 0x020000000000000031))).map fun t => (t.rem, t.inputs, t.responses)) =
      some (0xB1F4, [], [0]) := by decide

/-! ### One step per command -/

/-- In any state `CRC.INIT` leaves 0xFFFF (R59); X1: an illegal form changes nothing. -/
theorem test_crcInit :
    answered 0x1234 0x010000000000000000 = some (0xFFFF, [0]) ∧
    answered 0x1234 0x010000000000000001 = some (0x1234, [0x010000000000000000]) := by decide

/-- B4, B11, B17. -/
theorem test_crcByte :
    answered 0xFFFF 0x020000000000000031 = some (0xB1F4, [0]) ∧ answered 0x0000 0x020000000000000080 = some (0x1021, [0]) ∧
    answered 0x1234 0x020000000000000056 = some (0xCB9F, [0]) := by decide

/-- S2 and the worked example of 41_crc.md R61. -/
theorem test_crcRead :
    answered 0xEE46 0x030000000000000000 = some (0xEE46, [0x000000000000009D88]) ∧
    answered 0xB1F4 0x030000000000000000 = some (0xB1F4, [0x00000000000000D072]) := by decide

/-- S2; X6. -/
theorem test_crcSum :
    answered 0xEE46 0x040000000000000000 = some (0xEE46, [0x000000000000009D88]) ∧
    answered 0xEE46 0x040000000000010000 = some (0xEE46, [0x010000000000000000]) := by decide

/-- V1, V9, V23, V29. -/
theorem test_rev :
    answered 7 0x0800000000FFFFFFFF = some (7, [0]) ∧ answered 7 0x0800000004000000FD = some (7, [0x0B]) ∧
    answered 7 0x080000001F00000001 = some (7, [0x40000000]) ∧ answered 7 0x080000002082158888 = some (7, [0x1111A841]) := by decide

/-- D1, D19, D22, D13. -/
theorem test_mwfDec :
    answered 7 0x100000002D82158888 = some (7, [0x0003100400AC440200]) ∧
    answered 7 0x10000000022315888A = some (7, [0x0002084600AC440202]) ∧
    answered 7 0x1000000001410AC444 = some (7, [0x0001000400AC440200]) ∧
    answered 7 0x1000000001FFFFFFFF = some (7, [0x000100FF03FFFF0701]) := by decide

/-- D41, D44. -/
theorem test_mwfDec_refuses_version :
    answered 7 0x100000000082158888 = some (7, [0x100000000000000000]) ∧
    answered 7 0x108000000082158888 = some (7, [0x100000000000000000]) := by decide

/-- N1, N5, N7, N20. -/
theorem test_mwfEnc :
    answered 7 0x1100100400AC440200 = some (7, [0x82158888]) ∧ answered 7 0x1100084600AC440202 = some (7, [0x2315888A]) ∧
    answered 7 0x110010FF03FFFF0703 = some (7, [0xFFFFFFFF]) ∧ answered 7 0x1103100400AC440200 = some (7, [0x82158888]) := by decide

/-- The least value out of range of each slot of N8, by hand from 42_mwf.md R76: codec 4, channels 8, rate 262144, bps 0. -/
theorem test_mwfEnc_refuses_range :
    answered 7 0x110008000000000004 = some (7, [0x130000000000000000]) ∧
    answered 7 0x110008000000000800 = some (7, [0x130000000000000000]) ∧
    answered 7 0x110008000400000000 = some (7, [0x130000000000000000]) ∧
    answered 7 0x110000000000000000 = some (7, [0x130000000000000000]) := by decide

/-! ### The generic engine and the assembler -/

/-- The records of rows E9 and E7, and one that is no record; the values by hand from 41_crc.md R51 to R55 (E7 on 0x80: 07, 0E, 1C,
38, 70, E0, C7, 89). -/
theorem test_engine_other_widths :
    crcOfRecord ⟨5, 0x05, 0x1F, true, true, 0x1F⟩ [] = some 0 ∧ crcOfRecord ⟨8, 0x07, 0, false, false, 0⟩ [0x80] = some 0x89 ∧
    crcOfRecord ⟨0, 0, 0, false, false, 0⟩ [] = none := by decide

/-- D42, V30, N1 and the pseudo-instruction of 30_encoding.md R46, as text. -/
theorem test_assembler :
    assembleText "mwf.dec -1, 0x82158888 ; D42" = some [0x10FFFFFFFF82158888] ∧
    assembleText "rev 33, 0x1" = some [0x080000002100000001] ∧
    assembleText "mwf.enc 0, 2, 44100, 4, 16" = some [0x1100100400AC440200] ∧
    assembleText "CRC16B 0x31" = some [0x010000000000000000, 0x020000000000000031, 0x030000000000000000] ∧
    assembleText "crc.byte 256" = none := by decide

/-! ### Witnesses: values that meet the hypotheses of the obligations -/

theorem test_witness_IllFormedRecordsAreRefused :
    crcOfRecord ⟨1, 1, 1, false, false, 1⟩ [] = some 0 ∧ crcOfRecord crc16bRecord [] = some 0 := by decide

theorem test_witness_LittleEndianBytesInvert :
    0xFFFF < 2 ^ (8 * 2) ∧ 1 < 2 ∧ [0x88#8, 0x9D#8].length = 2 ∧ 0 < 2 ^ (8 * 0) ∧ ([] : List Byte).length = 0 := by decide

/-- The block by itself: B4, and a reset, which answers nothing. -/
theorem test_witness_BlockStateIsRemAlone :
    (start 0xFFFF [.command 0x020000000000000031, .reset]).inputs = .command 0x020000000000000031 :: [.reset] ∧
    Block.react (.command 0x020000000000000031) { rem := 0xFFFF } = ({ rem := 0xB1F4 }, some 0) ∧
    Block.react .reset { rem := 0x1234 } = ({ rem := 0xFFFF }, none) := by decide

theorem test_witness_RemIsReadAndWrittenByCrcCommandsOnly :
    Instr.opcode (.rev 8 1) ≠ .crcInit ∧ Instr.opcode (.rev 8 1) ≠ .crcByte ∧ Instr.opcode (.rev 8 1) ≠ .crcRead ∧
    Instr.opcode (.rev 8 1) ≠ .crcSum ∧ Instr.opcode .crcInit = .crcInit ∧ Instr.opcode .crcInit ≠ .crcByte ∧
    Instr.opcode .crcInit ≠ .crcRead ∧ Instr.opcode .crcInit ≠ .crcSum := by decide

theorem test_witness_ResetEventLoadsInitialRemainder :
    (start 0x1234 [.reset, .command 0]).inputs = .reset :: [.command 0] ∧
    nextOf (step (start 0x1234 [.reset, .command 0])) = some (start 0xFFFF [.command 0]) := by decide

theorem test_witness_IdleStepHoldsEverything :
    (start 0x1234 []).inputs = [] ∧ nextOf (step (start 0x1234 [])) = some (start 0x1234 []) := by decide

theorem test_witness_DecodeOfEncodeIsIdentity :
    Instr.wellFormed (.rev 32 0xFFFFFFFF) = true ∧ Instr.wellFormed (.mwfEnc 255 255 0xFFFFFF 255 255 3) = true := by decide

theorem test_witness_EncodeOfDecodeIsIdentity :
    decode 0x11030000000000FF00 = .ok (.mwfEnc 0 255 0 0 0 3) := by rfl

/-- A word of each kind the decoder tells apart, and a row that a word matches. -/
theorem test_witness_DecoderChecksFollowTheOpcodeTable :
    decoded 0x080000002000000001 = some (.rev 32 1) ∧ refusalOf 0x080000002100000001 = some .revCount ∧
    refusalOf 0x080000004000000000 = some .mustBeZeroBit ∧ refusalOf 0x070000000000000000 = some .unassignedOpcode ∧
    ⟨.rev, 0x080000000000000000, 0xFFFFFFFFC000000000⟩ ∈ opcodeTable ∧
    0x080000002100000001#72 &&& 0xFFFFFFFFC000000000#72 = 0x080000000000000000#72 := by decide

/-- Both ends of every operand range, and the values just outside. -/
theorem test_witness_AssembledCommandsDecodeAsWritten :
    assemble (.crcByte 255) = some [0x0200000000000000FF] ∧ assemble (.crcByte 256) = none ∧
    assemble (.rev 32 0xFFFFFFFF) = some [0x0800000020FFFFFFFF] ∧ assemble (.rev 63 0) = some [0x080000003F00000000] ∧
    assemble (.mwfDec (-2147483648) 0xFFFFFFFF) = some [0x1080000000FFFFFFFF] ∧
    assemble (.mwfDec 2147483647 0) = some [0x107FFFFFFF00000000] ∧
    assemble (.mwfEnc 255 255 0xFFFFFF 255 255) = some [0x1100FFFFFFFFFFFFFF] ∧
    assemble (.rawWord 0xFFFFFFFFFFFFFFFFFF) = some [0xFFFFFFFFFFFFFFFFFF] ∧
    assemble .crcInit = some [0x010000000000000000] ∧ assemble .crcRead = some [0x030000000000000000] ∧
    assemble .crcSum = some [0x040000000000000000] ∧ assemble (.rev 64 0) = none ∧ assemble (.rev 0 0x100000000) = none ∧
    assemble (.mwfDec (-2147483649) 0) = none ∧ assemble (.mwfDec 2147483648 0) = none ∧
    assemble (.mwfDec 0 0x100000000) = none ∧ assemble (.mwfEnc 256 0 0 0 0) = none ∧ assemble (.mwfEnc 0 256 0 0 0) = none ∧
    assemble (.mwfEnc 0 0 0x1000000 0 0) = none ∧ assemble (.mwfEnc 0 0 0 256 0) = none ∧
    assemble (.mwfEnc 0 0 0 0 256) = none ∧ assemble (.rawWord 0x1000000000000000000) = none := by decide

theorem test_witness_PseudoInstructionsComputeChecksums :
    (start 7 [.command 0x010000000000000000, .command 0x020000000000000031]).inputs =
      (encode .crcInit :: [0x31#8].map fun b => encode (.crcByte b)).map .command ∧
    (start 7 [.command 0x010000000000000000, .command 0x030000000000000000]).inputs =
      (encode .crcInit :: (([] : List Byte).map (fun b => encode (.crcByte b)) ++ [encode .crcRead])).map .command ∧
    (start 7 [.command 0x010000000000000000, .command 0x040000000000000000]).inputs =
      (encode .crcInit :: (([] : List Byte).map (fun b => encode (.crcByte b)) ++ [encode .crcSum])).map .command ∧
    ∀ b ∈ [0x7F#8], b.toNat < 128 := by decide

/-- The two ends of the bit range, and a value that agrees below the count. -/
theorem test_witness_ReverseBitsMirrorsTheLowBits :
    reverseBits 0xD 4 = 0xB ∧ 0 < 4 ∧ 3 < 4 ∧ 4 ≤ 4 ∧ ∀ i < 4, Nat.testBit 0xFD i = Nat.testBit 0xD i := by decide

theorem test_witness_ReverseBitsLaws : 15 < 2 ^ 4 ∧ reverseBits 13 4 = 11 ∧ reverseBits 11 4 = 13 ∧ 0 < 2 ^ 0 := by decide

theorem test_witness_RevAnswersTheReversedBits : (32#6).toNat ≤ 32 ∧ 32 < (33#6).toNat ∧ (0#6).toNat ≤ 32 := by decide

/-- Counts 32 and 33, and a must-be-zero bit. -/
theorem test_witness_RevCommandWordFollowsItsRule :
    (start 7 [.command 0x080000002000000001]).inputs = .command 0x080000002000000001 :: [] ∧
    BitVec.extractLsb' 64 8 0x080000002000000001#72 = 0x08#8 ∧
    answered 7 0x080000002000000001 = some (7, [0x80000000]) ∧
    answered 7 0x080000002100000001 = some (7, [0x010000000000000000]) ∧
    answered 7 0x0800000048000000F0 = some (7, [0x010000000000000000]) := by decide

theorem test_witness_PureCommandsAnswerFromTheirWordAlone :
    BitVec.extractLsb' 64 8 0x110000000000000000#72 ∈ [0x08#8, 0x10#8, 0x11#8] ∧
    (start 7 [.command 0x110000000000000000]).inputs = .command 0x110000000000000000 :: [] := by decide

theorem test_witness_CrcInitCommandWordFollowsItsRule :
    (start 7 [.command 0x010000000000000000, .reset]).inputs = .command 0x010000000000000000 :: [.reset] ∧
    BitVec.extractLsb' 64 8 0x010000000000000000#72 = 0x01#8 := by decide

theorem test_witness_CrcByteCommandWordFollowsItsRule :
    (start 7 [.command 0x0200000000000000FF]).inputs = .command 0x0200000000000000FF :: [] ∧
    BitVec.extractLsb' 64 8 0x0200000000000000FF#72 = 0x02#8 ∧
    answered 7 0x020000000000000100 = some (7, [0x010000000000000000]) := by decide

/-- A legal word, and X5. -/
theorem test_witness_CrcReadCommandWordFollowsItsRule :
    (start 0xB1F4 [.command 0x030000000000000000]).inputs = .command 0x030000000000000000 :: [] ∧
    BitVec.extractLsb' 64 8 0x030000000000000000#72 = 0x03#8 ∧
    BitVec.extractLsb' 64 8 0x030000000000000001#72 = 0x03#8 ∧ BitVec.extractLsb' 0 64 0x030000000000000001#72 ≠ 0#64 ∧
    answered 0xB1F4 0x030000000000000001 = some (0xB1F4, [0x010000000000000000]) := by decide

theorem test_witness_CrcSumCommandWordFollowsItsRule :
    (start 0xB1F4 [.command 0x040000000000000000]).inputs = .command 0x040000000000000000 :: [] ∧
    BitVec.extractLsb' 64 8 0x040000000000000000#72 = 0x04#8 := by decide

/-- Both ways a message starts, with a fault and a `REV` between its bytes. -/
theorem test_witness_MessageCommandsComputeTheDocumentsCrc :
    (start 7 [.reset, .command 0x020000000000000031, .command 0]).inputs =
      .reset :: [.command 0x020000000000000031, .command 0] ∧
    (start 7 [.command (encode .crcInit), .command 0x080000000800000031]).inputs =
      .command (encode .crcInit) :: [.command 0x080000000800000031] ∧
    absorbed [] [.command 0x020000000000000031, .command 0, .command 0x020000000000000032] = [0x31, 0x32] := by decide

/-- Versions 1 and 2, the two sides of 0, and the greatest. -/
theorem test_witness_LayoutFollowsTheSignedVersion :
    (1#32).toInt = 1 ∧ 2 ≤ (2#32).toInt ∧ 2 ≤ (0x7FFFFFFF#32).toInt ∧ (0#32).toInt ≤ 0 ∧ (0xFFFFFFFF#32).toInt ≤ 0 := by decide

theorem test_witness_BitsPerSampleAreInterpretedUnderV2Only : decResult 1 0x40000000 = .ok 0x0100000000000000 := by rfl

theorem test_witness_MwfDecIsTheMultiplexer :
    1 ≤ (1#32).toInt ∧ 1 ≤ (2#32).toInt ∧ 1 ≤ (0x7FFFFFFF#32).toInt := by decide

theorem test_witness_MwfDecRefusesVersionsBelowOne :
    (0#32).toInt ≤ 0 ∧ (0x80000000#32).toInt ≤ 0 ∧ ¬(1#32).toInt ≤ 0 ∧ (0x80000000#32).getLsbD 31 = true := by decide

/-- A word of each outcome: version 0, and versions 1 and 2. -/
theorem test_witness_MwfDecCommandWordFollowsItsRule :
    (start 7 [.command 0x100000000182158888]).inputs = .command 0x100000000182158888 :: [] ∧
    BitVec.extractLsb' 64 8 0x100000000182158888#72 = 0x10#8 ∧
    answered 7 0x100000000182158888 = some (7, [0x000000080158880400]) ∧
    answered 7 0x100000000282158888 = some (7, [0x0003100400AC440200]) ∧
    answered 7 0x100000000082158888 = some (7, [0x100000000000000000]) := by decide

theorem test_witness_EncodeOfRecordTilesTheWord :
    WaveFormat.bitsPerSample ⟨3, 7, 262143, 255, some .sixteen⟩ = some .sixteen ∧
    mwfEncode ⟨3, 7, 262143, 255, some .sixteen⟩ = .ok 0xFFFFFFFF ∧
    mwfEncode ⟨0, 0, 0, 0, some .eight⟩ = .ok 0 := ⟨rfl, rfl, rfl⟩

/-- Every slot at its greatest value in range, and one slot out of range. -/
theorem test_witness_MwfEncPacksInRangeRecords :
    (3#8).toNat ≤ 3 ∧ (7#8).toNat ≤ 7 ∧ (262143#24).toNat ≤ 262143 ∧ ((16#8).toNat = 8 ∨ (16#8).toNat = 16) ∧
    ¬((4#8).toNat ≤ 3 ∧ (7#8).toNat ≤ 7 ∧ (262143#24).toNat ≤ 262143 ∧ ((16#8).toNat = 8 ∨ (16#8).toNat = 16)) := by decide

/-- ILLEGAL before the range check, then the range check, then the word. -/
theorem test_witness_MwfEncCommandWordFollowsItsRule :
    (start 7 [.command 0x110010FF03FFFF0703]).inputs = .command 0x110010FF03FFFF0703 :: [] ∧
    BitVec.extractLsb' 64 8 0x110010FF03FFFF0703#72 = 0x11#8 ∧
    answered 7 0x110400000000000004 = some (7, [0x010000000000000000]) ∧
    answered 7 0x110018000000000000 = some (7, [0x130000000000000000]) ∧
    answered 7 0x110008000000000000 = some (7, [0]) := by decide

theorem test_witness_DecodedWordReencodesToItself :
    2 ≤ (2#32).toInt ∧
    (start 7 [.command (cmdWord 0x10#8 (2#32 ++ 0x82158888#32))]).inputs =
      .command (cmdWord 0x10#8 (2#32 ++ 0x82158888#32)) :: [] ∧
    (start 7 [.command (cmdWord 0x11#8 0x03100400AC440200#64)]).inputs =
      .command (cmdWord 0x11#8 0x03100400AC440200#64) :: [] := by decide

theorem test_witness_RepeatedRoundTripsAreAFixedPoint : 2 ≤ (45#32).toInt ∧ 2 ≤ (2#32).toInt ∧ 10 ≤ 10 := by decide

theorem test_witness_RecordsRoundTripAndV1DoesNot :
    2 ≤ (2#32).toInt ∧ WaveFormat.bitsPerSample ⟨0, 2, 44100, 4, some .eight⟩ = some .eight ∧
    (start 7 [.command (cmdWord 0x11#8 0x01000400AC440200#64)]).inputs =
      .command (cmdWord 0x11#8 0x01000400AC440200#64) :: [] := by decide

theorem test_witness_EveryCommandGetsExactlyOneResponse :
    (start 7 [.command 0xFFFFFFFFFFFFFFFFFF, .reset]).inputs = .command 0xFFFFFFFFFFFFFFFFFF :: [.reset] := by decide

/-- Each of the three faults, in a state with more to come. -/
theorem test_witness_FaultingCommandLeavesTheRunUnchanged :
    (start 7 [.command 0, .reset]).inputs = .command 0 :: [.reset] ∧
    nextOf (step (start 7 [.command 0, .reset])) =
      some { rem := 7, inputs := [.reset], responses := [] ++ [0x010000000000000000] } ∧
    statusOf 0x010000000000000000 ≠ 0x00#8 ∧
    answered 7 0x100000000000000000 = some (7, [0x100000000000000000]) ∧
    answered 7 0x110000000000000000 = some (7, [0x130000000000000000]) := by decide

theorem test_witness_StatusCodesAreProducedAsTabled :
    (start 7 [.command 0x100000000082158888]).inputs = .command 0x100000000082158888 :: [] ∧
    nextOf (step (start 7 [.command 0x100000000082158888])) =
      some { rem := 7, inputs := [], responses := [] ++ [0x100000000000000000] } ∧
    statusOf 0x100000000000000000 = 0x10#8 ∧ 0x13#8 ∈ [0x00#8, 0x01#8, 0x10#8, 0x13#8] := by decide

/-- A word of each of the five disjuncts, and a legal one. -/
theorem test_witness_IllegalIsAnsweredExactlyToNonCommands :
    (start 7 [.command 0]).inputs = .command 0 :: [] ∧
    ([0x120000000000000000, 0x040000000000000001, 0x020000000000000100, 0x080000002100000000, 0x110400000000000000].map
      (answered 7)) = List.replicate 5 (some (7, [0x010000000000000000])) ∧
    answered 7 0x080000002000000000 = some (7, [0]) := by decide

/-- A legal state with something emitted, and a step from it. -/
theorem test_witness_EveryStepKeepsResponsesLegal :
    ResponsesLegal { rem := 7, inputs := [.command 0], responses := [0x130000000000000000] } ∧
    nextOf (step { rem := 7, inputs := [.command 0], responses := [0x130000000000000000] }) =
      some { rem := 7, inputs := [], responses := [0x130000000000000000, 0x010000000000000000] } := by
  refine ⟨?_, by decide⟩
  intro rsp h
  rw [List.mem_singleton.1 h]
  exact .inr ⟨rfl, .inr (.inr rfl)⟩

theorem test_witness_StepRunsTheDecodedCommand :
    (start 7 [.command 0x020000000000000031]).inputs = .command 0x020000000000000031 :: [] ∧
    decode 0x020000000000000031 = .ok (.crcByte 0x31) := ⟨rfl, rfl⟩

theorem test_witness_RunAnswersEveryCommandInOrder :
    (start 7 [.command 0, .reset, .command 1]).inputs = [.command 0] ++ [.reset, .command 1] ∧
    commandCount [.command 0, .reset, .command 1] = 2 := by decide

theorem test_witness_RemHoldsExactlyTheAbsorbedBytes :
    State.reset.rem = crcUpdate crc16b 0xFFFF [] ∧ (start 0xB1F4 [.command 0]).rem = crcUpdate crc16b 0xFFFF [0x31] := by decide

end Sys2Proof.Tests
end

section
/-! SUPPORT and PROOF. Which records of numbers the generic engine has a value on (00_scope.md R6). -/

namespace Sys2Proof

theorem ParamRecord.wellFormed_iff (P : ParamRecord) :
    P.wellFormed = true ↔
      1 ≤ P.width ∧ P.poly < 2 ^ P.width ∧ P.init < 2 ^ P.width ∧ P.xorout < 2 ^ P.width := by
  simp only [ParamRecord.wellFormed, Bool.and_eq_true, decide_eq_true_eq, and_assoc]

/-- `params?` refuses exactly the ill-formed records. -/
theorem ParamRecord.params?_isSome (P : ParamRecord) : P.params?.isSome = P.wellFormed := by
  unfold ParamRecord.params?
  split
  next h => exact h.symm
  next h => exact (Bool.eq_false_of_not_eq_true h).symm

theorem ParamRecord.params?_crc16bRecord : Machine.crc16bRecord.params? = some Machine.crc16b := rfl

namespace Machine

/-- The engine on a record of numbers is the engine on the well-formed record it stands for, if there is one. -/
theorem crcOfRecord_eq_map (P : ParamRecord) (data : List Byte) :
    crcOfRecord P data = P.params?.map fun p => (crc p data).toNat := by
  unfold crcOfRecord
  cases P.params? <;> rfl

theorem crcOfRecord_isSome (P : ParamRecord) (data : List Byte) :
    (crcOfRecord P data).isSome = P.wellFormed := by
  rw [crcOfRecord_eq_map, Option.isSome_map, P.params?_isSome]

/-- A value of the engine is a word of the record's width. -/
theorem crcOfRecord_lt_two_pow {P : ParamRecord} {data : List Byte} {c : Nat} (h : crcOfRecord P data = some c) :
    c < 2 ^ P.width := by
  rw [crcOfRecord_eq_map, Option.map_eq_some_iff] at h
  obtain ⟨p, -, rfl⟩ := h
  exact (crc p data).isLt

theorem crcOfRecord_crc16bRecord (data : List Byte) :
    crcOfRecord crc16bRecord data = some (crc16bOf data).toNat := by
  rw [crcOfRecord_eq_map, ParamRecord.params?_crc16bRecord]
  rfl

/-- Settles O1: the engine has a value where `params?` does, which is the well-formedness check of R6. -/
theorem illFormedRecordsAreRefused : Obligations.IllFormedRecordsAreRefused := by
  refine ⟨fun P data => ⟨?_, fun c => crcOfRecord_lt_two_pow⟩, crcOfRecord_crc16bRecord⟩
  rw [crcOfRecord_isSome]
  exact P.wellFormed_iff

end Machine
end Sys2Proof
end

section
/-! SUPPORT and PROOF. What a command and a step read of the state: their own word and `REM` (10_state.md R10), and for `REV`,
`MWF.DEC` and `MWF.ENC` the word alone (10_state.md R17, 40_bitrev.md R50). -/

namespace Sys2Proof

/-- What the decoder accepts is a command of the opcode that the word carries. -/
theorem opOf_of_decode {cmd : CmdWord} {i : Instr} (h : decode cmd = .ok i) : opOf cmd = i.opcode.code := by
  cases hop : opcodeOf (opOf cmd) with
  | none => simp [decode, hop] at h
  | some op =>
    have hi : operandsOf op (argOf cmd) = i := by
      rw [decode_of_opcode hop] at h
      split_ifs at h
      exact Except.ok.inj h
    rw [← hi, opcode_operandsOf]
    exact (opcodeOf_eq_some_iff _ _).mp hop

namespace Machine

theorem Block.eq_iff_rem_eq (b b' : Block) : b = b' ↔ b.rem = b'.rem := by
  cases b
  cases b'
  rw [Block.mk.injEq]

/-- `REV` has the form of the MWF commands: an answer computed from the operands. -/
theorem execRev_eq_answer (n : BitVec 6) (value : BitVec 32) (s : State) :
    execRev n value s =
      answer (if Config.revMax < n.toNat then .error .illegal
        else .ok (BitVec.ofNat 64 (reverseBits value.toNat n.toNat))) s := by
  unfold execRev
  split <;> rfl

/-- `REV`, `MWF.DEC` and `MWF.ENC` emit one response, fixed by the command, and change nothing else. -/
theorem exec_pure_emits {i : Instr} (hi : i.opcode.code ∈ [0x08#8, 0x10#8, 0x11#8]) :
    ∃ rsp, ∀ s, exec i s = .next (emit rsp s) := by
  cases i with
  | crcInit => exact absurd (show Opcode.crcInit.code ∈ _ from hi) (by decide)
  | crcByte d => exact absurd (show Opcode.crcByte.code ∈ _ from hi) (by decide)
  | crcRead => exact absurd (show Opcode.crcRead.code ∈ _ from hi) (by decide)
  | crcSum => exact absurd (show Opcode.crcSum.code ∈ _ from hi) (by decide)
  | rev n value =>
    obtain ⟨rsp, h⟩ := answer_emits _
    exact ⟨rsp, fun s => (execRev_eq_answer n value s).trans (h s)⟩
  | mwfDec version word => exact answer_emits _
  | mwfEnc codec8 channels8 rate24 align8 bps8 ignored => exact answer_emits _

/-- The value a command writes to `REM` and its one response are fixed by the command and the value `REM` had. -/
theorem exec_emits_of_rem (i : Instr) (r : BitVec 16) :
    ∃ v rsp, ∀ s : State, s.rem = r → exec i s = .next (emit rsp (writeRem v s)) := by
  have of_pure (hi : i.opcode.code ∈ [0x08#8, 0x10#8, 0x11#8]) :
      ∃ v rsp, ∀ s : State, s.rem = r → exec i s = .next (emit rsp (writeRem v s)) := by
    obtain ⟨rsp, h⟩ := exec_pure_emits hi
    exact ⟨r, rsp, by rintro s rfl; exact h s⟩
  cases i with
  | crcInit => exact ⟨_, _, fun s _ => rfl⟩
  | crcByte d => exact ⟨crcByte crc16b r d, _, by rintro s rfl; rfl⟩
  | crcRead => exact ⟨r, rspWord .ok ((crcFinish crc16b r).setWidth 64), by rintro s rfl; rfl⟩
  | crcSum =>
    exact ⟨r, rspWord .ok (BitVec.ofNat 64 (fromLeBytes (leBytes (crcFinish crc16b r).toNat 2))), by rintro s rfl; rfl⟩
  | rev n value => exact of_pure (show Opcode.rev.code ∈ _ by decide)
  | mwfDec version word => exact of_pure (show Opcode.mwfDec.code ∈ _ by decide)
  | mwfEnc codec8 channels8 rate24 align8 bps8 ignored => exact of_pure (show Opcode.mwfEnc.code ∈ _ by decide)

theorem step_of_decode_ok {s : State} {cmd : CmdWord} {rest : List PortEvent} {i : Instr}
    (h : s.inputs = .command cmd :: rest) (hd : decode cmd = .ok i) : step s = exec i { s with inputs := rest } := by
  simp only [step_of_command h, hd]

theorem step_of_decode_error {s : State} {cmd : CmdWord} {rest : List PortEvent} {e : DecodeRefusal}
    (h : s.inputs = .command cmd :: rest) (hd : decode cmd = .error e) :
    step s = .next (emit (rspWord (.fault .illegal) 0) { s with inputs := rest }) := by
  simp only [step_of_command h, hd, raise_eq_next]

theorem step_of_reset {s : State} {rest : List PortEvent} (h : s.inputs = .reset :: rest) :
    step s = .next (resetBlock { s with inputs := rest }) := by
  simp only [step, accept_of_cons h]

/-- A step on a command word: what `REM` becomes and the one response are fixed by the word and the value `REM` had. -/
theorem step_command_emits_of_rem (cmd : CmdWord) (r : BitVec 16) :
    ∃ v rsp, ∀ (s : State) (rest : List PortEvent), s.inputs = .command cmd :: rest → s.rem = r →
      step s = .next (emit rsp (writeRem v { s with inputs := rest })) := by
  cases hd : decode cmd with
  | ok i =>
    obtain ⟨v, rsp, hexec⟩ := exec_emits_of_rem i r
    exact ⟨v, rsp, fun s rest h hr => (step_of_decode_ok h hd).trans (hexec { s with inputs := rest } hr)⟩
  | error e =>
    exact ⟨r, rspWord (.fault .illegal) 0, by rintro s rest h rfl; exact step_of_decode_error h hd⟩

/-- A step, on a command or a reset: the block it leaves and the response it adds, if any, are fixed by the event and the block. -/
theorem step_of_block (e : PortEvent) (b : Block) :
    ∃ b' rsp?, ∀ (s : State) (rest : List PortEvent), s.inputs = e :: rest → s.toBlock = b →
      step s = .next { toBlock := b', inputs := rest, responses := s.responses ++ Option.toList rsp? } := by
  cases e with
  | command cmd =>
    obtain ⟨v, rsp, hstep⟩ := step_command_emits_of_rem cmd b.rem
    exact ⟨{ rem := v }, some rsp, fun s rest h hb => hstep s rest h (congrArg Block.rem hb)⟩
  | reset =>
    refine ⟨{ rem := 0xFFFF }, none, fun s rest h _ => ?_⟩
    rw [step_of_reset h, Option.toList_none, List.append_nil]
    rfl

/-- Settles O5: `Block.react` is the step at empty ports, and a step reads nothing of the state but the event and the block. -/
theorem blockStateIsRemAlone : Obligations.BlockStateIsRemAlone := by
  refine ⟨Block.eq_iff_rem_eq, fun s e rest h => ?_⟩
  obtain ⟨b', rsp?, hstep⟩ := step_of_block e s.toBlock
  have hreact : Block.react e s.toBlock = (b', rsp?) := by
    rw [react_of_step (hstep _ [] rfl rfl), List.nil_append, Option.head?_toList]
  rw [hreact]
  exact hstep s rest h rfl

/-- Settles O21: a word the decoder refuses is answered ILLEGAL, and a decoded one is a command that reads its operands alone. -/
theorem pureCommandsAnswerFromTheirWordAlone : Obligations.PureCommandsAnswerFromTheirWordAlone := by
  intro cmd hop
  cases hd : decode cmd with
  | ok i =>
    obtain ⟨rsp, hexec⟩ := exec_pure_emits (i := i) (opOf_of_decode hd ▸ hop)
    exact ⟨rsp, fun s rest h => (step_of_decode_ok h hd).trans (hexec { s with inputs := rest })⟩
  | error e => exact ⟨_, fun s rest h => step_of_decode_error h hd⟩

end Machine
end Sys2Proof
end

section
/-! SUPPORT and PROOF. Byte order (20_memory.md R19): integers and their little-endian bytes, and the packed word and its four
stream bytes (20_memory.md R20). -/

namespace Sys2Proof.Machine

/-- Dropping the lowest byte and then `k` more drops `k + 1` bytes. -/
theorem div_256_shiftRight (v k : Nat) : (v / 256) >>> (8 * k) = v >>> (8 * (k + 1)) := by
  rw [Nat.mul_succ, Nat.add_comm, Nat.shiftRight_add, Nat.shiftRight_eq_div_pow v 8]

theorem two_pow_eight_mul_succ (n : Nat) : 2 ^ (8 * (n + 1)) = 256 * 2 ^ (8 * n) := by
  rw [Nat.mul_succ, Nat.pow_add, Nat.mul_comm]

/-- Byte `k` of an integer is its slice `[8k+7:8k]`. -/
theorem leBytes_eq_map_range (v n : Nat) :
    leBytes v n = (List.range n).map fun k => BitVec.ofNat 8 (v >>> (8 * k)) := by
  induction n generalizing v with
  | zero => rfl
  | succ n ih =>
    rw [leBytes, ih, List.range_succ_eq_map, List.map_cons, List.map_map]
    simp only [div_256_shiftRight, Function.comp_def]
    rfl

@[simp] theorem length_leBytes (v n : Nat) : (leBytes v n).length = n := by
  rw [leBytes_eq_map_range, List.length_map, List.length_range]

theorem leBytes_getElem? {v n k : Nat} (h : k < n) :
    (leBytes v n)[k]? = some (BitVec.ofNat 8 (v >>> (8 * k))) := by
  rw [leBytes_eq_map_range, List.getElem?_map, List.getElem?_range h, Option.map_some]

/-- The number of the low `n` bytes of `v` is `v` modulo `2^(8n)`: the bytes above are dropped. -/
theorem fromLeBytes_leBytes (v n : Nat) : fromLeBytes (leBytes v n) = v % 2 ^ (8 * n) := by
  induction n generalizing v with
  | zero => exact (Nat.mod_one v).symm
  | succ n ih => rw [leBytes, fromLeBytes, ih, two_pow_eight_mul_succ, Nat.mod_mul, BitVec.toNat_ofNat]

theorem fromLeBytes_lt (bytes : List Byte) : fromLeBytes bytes < 2 ^ (8 * bytes.length) := by
  induction bytes with
  | nil => exact Nat.one_pos
  | cons b bs ih =>
    rw [fromLeBytes, List.length_cons, two_pow_eight_mul_succ]
    have hb : b.toNat < 256 := b.isLt
    omega

theorem leBytes_fromLeBytes (bytes : List Byte) : leBytes (fromLeBytes bytes) bytes.length = bytes := by
  induction bytes with
  | nil => rfl
  | cons b bs ih =>
    have hb : b.toNat < 256 := b.isLt
    have low : BitVec.ofNat 8 (b.toNat + 256 * fromLeBytes bs) = b := by
      apply BitVec.eq_of_toNat_eq
      rw [BitVec.toNat_ofNat]
      omega
    have high : (b.toNat + 256 * fromLeBytes bs) / 256 = fromLeBytes bs := by omega
    rw [fromLeBytes, List.length_cons, leBytes, low, high, ih]

/-- Settles O2: below `2^(8n)` no byte is dropped, and a sequence of `n` bytes is that of its own number. -/
theorem littleEndianBytesInvert : Obligations.LittleEndianBytesInvert := by
  intro v n hv
  refine ⟨length_leBytes v n, fun k => leBytes_getElem?, ?_, ?_⟩
  · rw [fromLeBytes_leBytes, Nat.mod_eq_of_lt hv]
  · rintro bytes rfl
    exact ⟨leBytes_fromLeBytes bytes, fromLeBytes_lt bytes⟩

/-- The stream bytes of a packed word are its four byte slices, the lowest first. -/
theorem streamBytes_eq_slices (word : MwfWord) :
    streamBytes word =
      [word.extractLsb' 0 8, word.extractLsb' 8 8, word.extractLsb' 16 8, word.extractLsb' 24 8] :=
  leBytes_eq_map_range word.toNat 4

theorem wordOfStream_streamBytes (word : MwfWord) : wordOfStream (streamBytes word) = word := by
  rw [wordOfStream, streamBytes, fromLeBytes_leBytes, Nat.mod_eq_of_lt word.isLt, BitVec.ofNat_toNat, BitVec.setWidth_eq]

/-- Four bytes fit the packed word, so the word formed from them keeps their number. -/
theorem toNat_wordOfStream {bytes : List Byte} (h : bytes.length = 4) :
    (wordOfStream bytes).toNat = fromLeBytes bytes := by
  have hlt := fromLeBytes_lt bytes
  rw [h] at hlt
  exact Nat.mod_eq_of_lt hlt

theorem streamBytes_wordOfStream {bytes : List Byte} (h : bytes.length = 4) :
    streamBytes (wordOfStream bytes) = bytes := by
  rw [streamBytes, toNat_wordOfStream h, ← h, leBytes_fromLeBytes]

/-- Settles O3: a packed word and four stream bytes are the two sides of R19's inverse at `n = 4`. -/
theorem packedWordIsItsStreamBytes : Obligations.PackedWordIsItsStreamBytes :=
  ⟨fun word => ⟨streamBytes_eq_slices word, wordOfStream_streamBytes word⟩,
    fun _ _ _ _ => streamBytes_wordOfStream rfl, by decide⟩

end Sys2Proof.Machine
end

section
/-! SUPPORT and PROOF. The pseudo-instructions (30_encoding.md R46): the words they expand to, and what a run of those words leaves
in `REM` and answers. -/

namespace Sys2Proof

/-- A command is read back from its word when its operand lane passes the decoder's last two checks and slices into its operands. -/
theorem decode_encode_of_lane {i : Instr} (hmbz : encodeArg i &&& mbzMask i.opcode = 0)
    (hslices : operandsOf i.opcode (encodeArg i) = i) (hwf : i.wellFormed = true) : decode (encode i) = .ok i := by
  have hop : opcodeOf (opOf (encode i)) = some i.opcode := (Laws.EncodedOpcode.of_encode i).2
  have harg : argOf (encode i) = encodeArg i := argOf_cmdWord _ _
  rw [decode_of_opcode hop, harg, hslices, if_neg (not_not.mpr hmbz), if_pos hwf]

theorem decode_encode_crcInit : decode (encode .crcInit) = .ok .crcInit := decode_encode_of_lane rfl rfl rfl

theorem decode_encode_crcRead : decode (encode .crcRead) = .ok .crcRead := decode_encode_of_lane rfl rfl rfl

theorem decode_encode_crcSum : decode (encode .crcSum) = .ok .crcSum := decode_encode_of_lane rfl rfl rfl

theorem decode_encode_crcByte (d : Byte) : decode (encode (.crcByte d)) = .ok (.crcByte d) := by
  have hzero : (encodeArg (.crcByte d)).extractLsb' 8 56 = 0#56 := (slice_append_high (by decide)).trans slice_all
  have hlow : (encodeArg (.crcByte d)).extractLsb' 0 8 = d := (slice_append_low (by decide)).trans slice_all
  have hmbz := (and_mask_eq_zero_iff _ (mbzMask .crcByte) 8 56 (by decide)).mpr hzero
  exact decode_encode_of_lane hmbz (congrArg Instr.crcByte hlow) rfl

namespace Machine

/-! ### Expansions -/

/-- The words of `crc.byte` of each byte. -/
def byteWords (bytes : List Byte) : List CmdWord := bytes.map fun b => encode (.crcByte b)

/-- The words `crc.msg` expands to, and then the words `tail`. -/
def messageWords (bytes : List Byte) (tail : List CmdWord) : List CmdWord :=
  encode .crcInit :: (byteWords bytes ++ tail)

theorem messageWords_nil (bytes : List Byte) : messageWords bytes [] = encode .crcInit :: byteWords bytes := by
  rw [messageWords, List.append_nil]

/-- A number below 256 is in the range of `crc.byte`, so a byte always has its word. -/
theorem asmByte_toNat (b : Byte) : asmByte b.toNat = some (encode (.crcByte b)) := by
  have hrange : b.toNat ≤ 255 := Nat.le_of_lt_succ b.isLt
  rw [asmByte, if_pos hrange, BitVec.ofNat_toNat, BitVec.setWidth_eq]

theorem asmBytes_toNat (bytes : List Byte) : asmBytes (bytes.map BitVec.toNat) = some (byteWords bytes) := by
  induction bytes with
  | nil => rfl
  | cons b bs ih => simp only [List.map_cons, asmBytes, asmByte_toNat, ih, byteWords]

theorem asmMessage_toNat (bytes : List Byte) (tail : List CmdWord) :
    asmMessage (bytes.map BitVec.toNat) tail = some (messageWords bytes tail) := by
  simp only [asmMessage, asmBytes_toNat, messageWords]

theorem assemble_crcMsg (bytes : List Byte) :
    assemble (.crcMsg (bytes.map BitVec.toNat)) = some (encode .crcInit :: byteWords bytes) := by
  rw [← messageWords_nil]
  exact asmMessage_toNat bytes []

theorem assemble_crc16b (bytes : List Byte) :
    assemble (.crc16b (bytes.map BitVec.toNat)) = some (messageWords bytes [encode .crcRead]) :=
  asmMessage_toNat bytes [encode .crcRead]

theorem assemble_checksum (bytes : List Byte) :
    assemble (.checksum (bytes.map BitVec.toNat)) = some (messageWords bytes [encode .crcSum]) :=
  asmMessage_toNat bytes [encode .crcSum]

/-- Text of ASCII codes assembles to the words of its codes, with no `CRC.INIT` before them. -/
theorem assemble_crcStr {bytes : List Byte} (hascii : ∀ b ∈ bytes, b.toNat < 128) :
    assemble (.crcStr (bytes.map BitVec.toNat)) = some (byteWords bytes) := by
  have hall : (bytes.map BitVec.toNat).all (· < 128) = true := by simpa using hascii
  rw [assemble, if_pos hall, asmBytes_toNat]

/-! ### Runs -/

theorem step_crcInit {s : State} {rest : List PortEvent} (h : s.inputs = .command (encode .crcInit) :: rest) :
    step s = .next (emit (rspWord .ok 0) (writeRem 0xFFFF { s with inputs := rest })) :=
  step_of_decode_ok h decode_encode_crcInit

theorem step_crcByte {s : State} {d : Byte} {rest : List PortEvent}
    (h : s.inputs = .command (encode (.crcByte d)) :: rest) :
    step s = .next (emit (rspWord .ok 0) (writeRem (crcByte crc16b s.rem d) { s with inputs := rest })) :=
  step_of_decode_ok h (decode_encode_crcByte d)

theorem step_crcRead {s : State} {rest : List PortEvent} (h : s.inputs = .command (encode .crcRead) :: rest) :
    step s = .next (emit (rspWord .ok ((remCrc s).setWidth 64)) { s with inputs := rest }) :=
  step_of_decode_ok h decode_encode_crcRead

/-- The lane in which `CRC.SUM` answers: the number of the two checksum bytes. -/
def sumLane (c : BitVec 16) : Lane := BitVec.ofNat 64 (fromLeBytes (leBytes c.toNat 2))

theorem step_crcSum {s : State} {rest : List PortEvent} (h : s.inputs = .command (encode .crcSum) :: rest) :
    step s = .next (emit (rspWord .ok (sumLane (remCrc s))) { s with inputs := rest }) :=
  step_of_decode_ok h decode_encode_crcSum

/-- Taking the words of the bytes folds the bytes into `REM`, whatever is presented after them. -/
theorem runSteps_byteWords (bytes : List Byte) (n : Nat) (rest : List PortEvent) (s : State)
    (h : s.inputs = (byteWords bytes).map .command ++ rest) :
    ∃ t, runSteps (n + bytes.length) s = runSteps n t ∧ t.inputs = rest ∧ t.rem = crcUpdate crc16b s.rem bytes := by
  induction bytes generalizing s with
  | nil => exact ⟨s, rfl, h, rfl⟩
  | cons b bs ih =>
    have hfirst := runSteps_succ (n := n + bs.length) (step_crcByte h)
    obtain ⟨t, hrun, hinputs, hrem⟩ := ih (emit _ (writeRem _ { s with inputs := _ })) rfl
    exact ⟨t, hfirst.trans hrun, hinputs, hrem⟩

/-- Taking the words of a message leaves the message's remainder in `REM`, whatever `REM` was, and the tail presented. -/
theorem runSteps_messageWords (bytes : List Byte) (tail : List CmdWord) (n : Nat) (s : State)
    (h : s.inputs = (messageWords bytes tail).map .command) :
    ∃ t, runSteps (bytes.length + (n + 1)) s = runSteps n t ∧ t.inputs = tail.map .command ∧
      t.rem = crcUpdate crc16b 0xFFFF bytes := by
  have hfirst := runSteps_succ (n := n + bytes.length) (step_crcInit h)
  obtain ⟨t, hrun, hinputs, hrem⟩ :=
    runSteps_byteWords bytes n (tail.map .command) (emit _ (writeRem _ { s with inputs := _ })) List.map_append
  have hcount : bytes.length + (n + 1) = n + bytes.length + 1 := by omega
  rw [hcount]
  exact ⟨t, hfirst.trans hrun, hinputs, hrem⟩

/-- `CRC.READ` and `CRC.SUM` answer from `remCrc`, which after a message is the message's CRC. -/
theorem remCrc_of_message {bytes : List Byte} {s : State} (h : s.rem = crcUpdate crc16b 0xFFFF bytes) :
    remCrc s = crc16bOf bytes :=
  congrArg (crcFinish crc16b) h

/-- A message and then one command that answers from `remCrc`: the run ends with that answer, computed from the message's CRC. -/
theorem runSteps_message_answer {cmd : CmdWord} {answerOf : BitVec 16 → RspWord}
    (hstep : ∀ {s : State}, s.inputs = [.command cmd] → step s = .next (emit (answerOf (remCrc s)) { s with inputs := [] }))
    (bytes : List Byte) {s : State} (h : s.inputs = (messageWords bytes [cmd]).map .command) :
    ∃ t, runSteps (bytes.length + 2) s = .next t ∧ t.responses.getLast? = some (answerOf (crc16bOf bytes)) := by
  obtain ⟨u, hmessage, hinputs, hrem⟩ := runSteps_messageWords bytes [cmd] 1 s h
  have hlast : runSteps 1 u = .next (emit (answerOf (remCrc u)) { u with inputs := [] }) := runSteps_succ (hstep hinputs)
  refine ⟨_, hmessage.trans hlast, ?_⟩
  rw [emit_responses, List.getLast?_concat, remCrc_of_message hrem]

/-! ### The checksum response -/

theorem statusOf_rspWord (status : Status) (data : Lane) : statusOf (rspWord status data) = status.number :=
  (slice_append_high (by decide)).trans slice_all

/-- A slice of the data half is the same slice of the response word. -/
theorem slice_rspWord {status : Status} {data : Lane} {start len : Nat} (h : start + len ≤ 64) :
    (rspWord status data).extractLsb' start len = data.extractLsb' start len :=
  slice_append_low h

/-- The number of two bytes is below `2^64`, so the lane keeps it. -/
theorem toNat_sumLane (c : BitVec 16) : (sumLane c).toNat = c.toNat := by
  have hc : c.toNat < 2 ^ (8 * 2) := c.isLt
  rw [sumLane, fromLeBytes_leBytes, Nat.mod_eq_of_lt hc, BitVec.toNat_ofNat, Nat.mod_eq_of_lt (by omega)]

/-- The two low byte slices of the lane are the two bytes of the CRC, the low one first. -/
theorem leBytes_eq_slices_sumLane (c : BitVec 16) :
    leBytes c.toNat 2 = [(sumLane c).extractLsb' 0 8, (sumLane c).extractLsb' 8 8] := by
  rw [← toNat_sumLane]
  exact leBytes_eq_map_range (sumLane c).toNat 2

theorem soundbankChecksum_eq_slices (bytes : List Byte) (status : Status) :
    soundbankChecksum bytes =
      [(rspWord status (sumLane (crc16bOf bytes))).extractLsb' 0 8,
        (rspWord status (sumLane (crc16bOf bytes))).extractLsb' 8 8] := by
  rw [slice_rspWord (by decide), slice_rspWord (by decide)]
  exact leBytes_eq_slices_sumLane (crc16bOf bytes)

/-- Settles O16: each line expands to `messageWords` or `byteWords`, and a run of a message's words ends in its remainder, its CRC
or its checksum, whatever the state it starts from. -/
theorem pseudoInstructionsComputeChecksums : Obligations.PseudoInstructionsComputeChecksums := by
  refine fun bytes => ⟨⟨assemble_crcMsg bytes, fun s h => ?_⟩, ⟨assemble_crc16b bytes, fun s h => ?_⟩,
    ⟨assemble_checksum bytes, fun s h => ?_⟩, assemble_crcStr, fun _ _ _ _ _ => rfl⟩
  · obtain ⟨t, hrun, -, hrem⟩ := runSteps_messageWords bytes [] 0 s (by rwa [messageWords_nil])
    exact ⟨t, hrun, hrem⟩
  · exact runSteps_message_answer (answerOf := fun c => rspWord .ok (c.setWidth 64)) step_crcRead bytes h
  · obtain ⟨t, hrun, hlast⟩ := runSteps_message_answer (answerOf := fun c => rspWord .ok (sumLane c)) step_crcSum bytes h
    exact ⟨t, _, hrun, hlast, statusOf_rspWord _ _, soundbankChecksum_eq_slices bytes .ok⟩

end Machine
end Sys2Proof
end

section
/-! SUPPORT and PROOF. The decoder's checks in their order, and the rows of the opcode table (30_encoding.md R43). -/

namespace Sys2Proof

theorem opcodeOf_eq_none_iff (b : BitVec 8) :
    opcodeOf b = none ↔ b ∉ [0x01#8, 0x02#8, 0x03#8, 0x04#8, 0x08#8, 0x10#8, 0x11#8] := by
  revert b
  decide

theorem decode_of_unassigned {cmd : CmdWord} (h : opcodeOf (opOf cmd) = none) : decode cmd = .error .unassignedOpcode := by
  simp only [decode, h]

/-- What a result of the decoder says of the word: which check failed, the earlier ones passed, or that none did. -/
def DecodeReason (cmd : CmdWord) : Except DecodeRefusal Instr → Prop
  | .error .unassignedOpcode => opcodeOf (opOf cmd) = none
  | .error .mustBeZeroBit => ∃ op, opcodeOf (opOf cmd) = some op ∧ argOf cmd &&& mbzMask op ≠ 0
  | .error .revCount =>
    ∃ op, opcodeOf (opOf cmd) = some op ∧ argOf cmd &&& mbzMask op = 0 ∧ (operandsOf op (argOf cmd)).wellFormed = false
  | .ok i =>
    ∃ op, opcodeOf (opOf cmd) = some op ∧ argOf cmd &&& mbzMask op = 0 ∧ i.wellFormed = true ∧
      i = operandsOf op (argOf cmd)

theorem decode_reason (cmd : CmdWord) : DecodeReason cmd (decode cmd) := by
  cases hop : opcodeOf (opOf cmd) with
  | none =>
    rw [decode_of_unassigned hop]
    exact hop
  | some op =>
    rw [decode_of_opcode hop]
    split_ifs with hmbz hwf
    · exact ⟨op, hop, hmbz⟩
    · exact ⟨op, hop, not_not.mp hmbz, hwf, rfl⟩
    · exact ⟨op, hop, not_not.mp hmbz, Bool.eq_false_of_not_eq_true hwf⟩

theorem reason_of_decode {cmd : CmdWord} {result : Except DecodeRefusal Instr} (h : decode cmd = result) :
    DecodeReason cmd result :=
  h ▸ decode_reason cmd

theorem decode_eq_unassignedOpcode_iff (cmd : CmdWord) :
    decode cmd = .error .unassignedOpcode ↔ opcodeOf (opOf cmd) = none :=
  ⟨reason_of_decode, decode_of_unassigned⟩

theorem decode_eq_mustBeZeroBit_iff (cmd : CmdWord) :
    decode cmd = .error .mustBeZeroBit ↔ ∃ op, opcodeOf (opOf cmd) = some op ∧ argOf cmd &&& mbzMask op ≠ 0 := by
  refine ⟨reason_of_decode, ?_⟩
  rintro ⟨op, hop, hmbz⟩
  rw [decode_of_opcode hop, if_pos hmbz]

/-- The last check refuses `REV` with a count above 32, and no other command. -/
theorem wellFormed_operandsOf_eq_false (op : Opcode) (arg : Lane) :
    (operandsOf op arg).wellFormed = false ↔ op = .rev ∧ 32 < (arg.extractLsb' 32 6).toNat := by
  rw [← Bool.not_eq_true, wellFormed_operandsOf, Classical.not_imp, not_le]

theorem mbz_rev_iff (cmd : CmdWord) : argOf cmd &&& mbzMask .rev = 0 ↔ cmd.extractLsb' 38 26 = 0#26 := by
  rw [and_mask_eq_zero_iff _ (mbzMask .rev) 38 26 (by decide), slice_argOf cmd 38 26 (by decide)]

theorem decode_eq_revCount_iff (cmd : CmdWord) :
    decode cmd = .error .revCount ↔
      opOf cmd = 0x08#8 ∧ cmd.extractLsb' 38 26 = 0#26 ∧ 32 < (cmd.extractLsb' 32 6).toNat := by
  have hrev : opcodeOf (opOf cmd) = some .rev ↔ opOf cmd = 0x08#8 := opcodeOf_eq_some_iff _ _
  rw [← hrev, ← mbz_rev_iff, ← slice_argOf cmd 32 6 (by decide)]
  constructor
  · intro h
    obtain ⟨op, hop, hmbz, hwf⟩ := reason_of_decode h
    obtain ⟨rfl, hcount⟩ := (wellFormed_operandsOf_eq_false op _).mp hwf
    exact ⟨hop, hmbz, hcount⟩
  · rintro ⟨hop, hmbz, hcount⟩
    have hwf := (wellFormed_operandsOf_eq_false .rev _).mpr ⟨rfl, hcount⟩
    rw [decode_of_opcode hop, if_neg (not_not.mpr hmbz), hwf]
    rfl

/-! ### The opcode table -/

/-- The row R43 gives a command: the opcode bits and the must-be-zero bits are compared, with the opcode's number and with zero. -/
def Opcode.row (op : Opcode) : TableRow := ⟨op, cmdWord op.code 0, cmdWord 0xFF (mbzMask op)⟩

theorem eq_row_of_mem_opcodeTable : ∀ row ∈ opcodeTable, row = row.opcode.row := by decide

theorem cmdWord_and (op op' : BitVec 8) (arg arg' : Lane) :
    cmdWord op arg &&& cmdWord op' arg' = cmdWord (op &&& op') (arg &&& arg') :=
  BitVec.and_append

theorem cmdWord_inj {op op' : BitVec 8} {arg arg' : Lane} : cmdWord op arg = cmdWord op' arg' ↔ op = op' ∧ arg = arg' := by
  constructor
  · intro h
    exact ⟨by simpa only [opOf_cmdWord] using congrArg opOf h, by simpa only [argOf_cmdWord] using congrArg argOf h⟩
  · rintro ⟨rfl, rfl⟩
    rfl

/-- A word matches a command's row exactly when it passes the first two checks for that command. -/
theorem matches_row_iff (cmd : CmdWord) (op : Opcode) :
    cmd &&& op.row.mask = op.row.pattern ↔ opcodeOf (opOf cmd) = some op ∧ argOf cmd &&& mbzMask op = 0 := by
  have hones : opOf cmd &&& 0xFF = opOf cmd := BitVec.and_allOnes
  rw [opcodeOf_eq_some_iff, ← cmdWord_inj, ← hones, ← cmdWord_and, cmdWord_opOf_argOf]
  rfl

theorem matches_table_iff (cmd : CmdWord) {row : TableRow} (hrow : row ∈ opcodeTable) :
    cmd &&& row.mask = row.pattern ↔
      opcodeOf (opOf cmd) = some row.opcode ∧ argOf cmd &&& mbzMask row.opcode = 0 := by
  rw [eq_row_of_mem_opcodeTable row hrow]
  exact matches_row_iff cmd row.opcode

/-- A word has one opcode, so it matches one row at most. -/
theorem matching_row_unique {cmd : CmdWord} {row row' : TableRow} (hrow : row ∈ opcodeTable) (hrow' : row' ∈ opcodeTable)
    (h : cmd &&& row.mask = row.pattern) (h' : cmd &&& row'.mask = row'.pattern) : row = row' := by
  have hop := ((matches_table_iff cmd hrow).mp h).1
  have hop' := ((matches_table_iff cmd hrow').mp h').1
  have heq : row.opcode = row'.opcode := Option.some.inj (hop.symm.trans hop')
  rw [eq_row_of_mem_opcodeTable row hrow, heq, ← eq_row_of_mem_opcodeTable row' hrow']

/-- Settles O13: each refusal by its check, an accepted word by its operand slices, and the table by `Opcode.row`. -/
theorem decoderChecksFollowTheOpcodeTable : Obligations.DecoderChecksFollowTheOpcodeTable := by
  refine ⟨⟨rfl, rfl, rfl, rfl, rfl, rfl, rfl⟩, fun cmd => ⟨?_, decode_eq_mustBeZeroBit_iff cmd, decode_eq_revCount_iff cmd,
    fun i h => ?_, fun row => matches_table_iff cmd, fun row hrow row' => matching_row_unique hrow⟩⟩
  · exact (decode_eq_unassignedOpcode_iff cmd).trans (opcodeOf_eq_none_iff _)
  · obtain ⟨op, hop, -, -, rfl⟩ := reason_of_decode h
    refine ⟨op, hop, ?_⟩
    cases op <;> simp [operandsOf, slice_argOf]

end Sys2Proof
end

section
/-! SUPPORT and PROOF. The laws of `reverse_bits` (40_bitrev.md R47, R48), read off the bits of a reversal, and its two uses in the
CRC unit (41_crc.md R52, R54). -/

namespace Sys2Proof.Machine

/-! ### The function -/

theorem reverseBits_testBit_mirror {n i : Nat} (value : Nat) (h : i < n) :
    (reverseBits value n).testBit (n - 1 - i) = value.testBit i := by
  have hplace : n - 1 - i < n := by omega
  have hback : n - 1 - (n - 1 - i) = i := by omega
  rw [reverseBits_testBit, hback, decide_eq_true hplace, Bool.true_and]

theorem reverseBits_testBit_of_ge {n j : Nat} (value : Nat) (h : n ≤ j) : (reverseBits value n).testBit j = false := by
  rw [reverseBits_testBit, decide_eq_false (not_lt.mpr h), Bool.false_and]

/-- R47 determines the result: it is the one number below `2^n` whose low bits mirror the value's. -/
theorem eq_reverseBits_of_mirror {n value r : Nat} (hr : r < 2 ^ n)
    (hmirror : ∀ i, i < n → r.testBit (n - 1 - i) = value.testBit i) : r = reverseBits value n := by
  apply Nat.eq_of_testBit_eq
  intro j
  by_cases hj : j < n
  · have hback : n - 1 - (n - 1 - j) = j := by omega
    rw [reverseBits_testBit, decide_eq_true hj, Bool.true_and, ← hmirror (n - 1 - j) (by omega), hback]
  · have hle : n ≤ j := not_lt.mp hj
    rw [reverseBits_testBit_of_ge value hle, Nat.testBit_lt_two_pow (hr.trans_le (Nat.pow_le_pow_right two_pos hle))]

/-- A reversal at width `n` reads the low `n` bits of the value only. -/
theorem reverseBits_congr {n value value' : Nat} (h : ∀ i, i < n → value'.testBit i = value.testBit i) :
    reverseBits value' n = reverseBits value n :=
  eq_reverseBits_of_mirror (reverseBits_lt_two_pow value' n) fun i hi => (reverseBits_testBit_mirror value' hi).trans (h i hi)

/-- Settles O17: each part is a fact about the bits of a reversal. -/
theorem reverseBitsMirrorsTheLowBits : Obligations.ReverseBitsMirrorsTheLowBits := fun value n =>
  ⟨reverseBits_lt_two_pow value n, fun _ => reverseBits_testBit_mirror value, fun _ => reverseBits_testBit_of_ge value,
    fun _ => reverseBits_congr⟩

/-! ### Its laws -/

theorem reverseBits_zero_width (v : Nat) : reverseBits v 0 = 0 :=
  Nat.lt_one_iff.mp (reverseBits_lt_two_pow v 0)

theorem reverseBits_mod_two_pow (v n : Nat) : reverseBits (v % 2 ^ n) n = reverseBits v n := by
  apply reverseBits_congr
  intro i hi
  rw [Nat.testBit_mod_two_pow, decide_eq_true hi, Bool.true_and]

/-- The only bit of a value of width 1 is its own mirror image. -/
theorem reverseBits_one_width (v : Nat) : reverseBits v 1 = v % 2 ^ 1 := by
  refine (eq_reverseBits_of_mirror (Nat.mod_lt v (by decide)) fun i hi => ?_).symm
  rw [Nat.lt_one_iff.mp hi, Nat.testBit_mod_two_pow]
  rfl

theorem reverseBits_reverseBits {v n : Nat} (h : v < 2 ^ n) : reverseBits (reverseBits v n) n = v := by
  refine (eq_reverseBits_of_mirror h fun i hi => ?_).symm
  rw [reverseBits_testBit, decide_eq_true hi, Bool.true_and]

/-- An involution of the values below `2^n` is a bijection on them. -/
theorem reverseBits_bijOn (n : Nat) : Set.BijOn (fun v => reverseBits v n) { v | v < 2 ^ n } { v | v < 2 ^ n } := by
  have hinv : Set.LeftInvOn (fun v => reverseBits v n) (fun v => reverseBits v n) { v | v < 2 ^ n } :=
    fun _ hv => reverseBits_reverseBits hv
  have hmaps : Set.MapsTo (fun v => reverseBits v n) { v | v < 2 ^ n } { v | v < 2 ^ n } :=
    fun v _ => reverseBits_lt_two_pow v n
  exact Set.InvOn.bijOn ⟨hinv, hinv⟩ hmaps hmaps

/-- A reversal permutes bit positions, so it commutes with every operation that works bit by bit and keeps zero bits zero. -/
theorem reverseBits_bitwise {op : Nat → Nat → Nat} {f : Bool → Bool → Bool}
    (hop : ∀ a b i, (op a b).testBit i = f (a.testBit i) (b.testBit i)) (hzero : f false false = false) (a b n : Nat) :
    reverseBits (op a b) n = op (reverseBits a n) (reverseBits b n) := by
  have hlt : op (reverseBits a n) (reverseBits b n) < 2 ^ n := by
    refine Nat.lt_pow_two_of_testBit _ fun j hj => ?_
    rw [hop, reverseBits_testBit_of_ge a hj, reverseBits_testBit_of_ge b hj, hzero]
  refine (eq_reverseBits_of_mirror hlt fun i hi => ?_).symm
  rw [hop, reverseBits_testBit_mirror a hi, reverseBits_testBit_mirror b hi, hop]

/-! ### Its uses in the CRC unit -/

/-- The byte step runs over the bits of the byte as a number, reversed at width 8 when `REFIN` is set (41_crc.md R52). -/
theorem crcByte_eq_foldl_testBit {w : Nat} (P : CrcParams w) (rem : BitVec w) (d : Byte) :
    crcByte P rem d =
      [7, 6, 5, 4, 3, 2, 1, 0].foldl
        (fun r i => crcBit P r ((if P.refin then reverseBits d.toNat 8 else d.toNat).testBit i)) rem := by
  unfold crcByte
  cases P.refin with
  | true => simp only [if_true, BitVec.getLsbD, reverseWord_toNat]
  | false => rfl

/-- The last step on numbers: the reversal at the record's width when `REFOUT` is set, then the XOR (41_crc.md R54). -/
theorem crcFinish_toNat {w : Nat} (P : CrcParams w) (rem : BitVec w) :
    (crcFinish P rem).toNat = (if P.refout then reverseBits rem.toNat w else rem.toNat) ^^^ P.xorout.toNat := by
  rw [crcFinish, BitVec.toNat_xor, apply_ite BitVec.toNat, reverseWord_toNat]

/-- Settles O18: CRC16B sets `REFIN` and `REFOUT`, so both uses are the reflected branch of the general equation. -/
theorem reverseBitsLaws : Obligations.ReverseBitsLaws :=
  ⟨reverseBits_zero_width, reverseBits_one_width, fun _ _ => reverseBits_reverseBits, reverseBits_bijOn,
    fun v n => (reverseBits_mod_two_pow v n).symm,
    reverseBits_bitwise Nat.testBit_xor rfl, reverseBits_bitwise Nat.testBit_and rfl, reverseBits_bitwise Nat.testBit_or rfl,
    crcByte_eq_foldl_testBit crc16b, crcFinish_toNat crc16b⟩

end Sys2Proof.Machine
end

section
/-! SUPPORT and PROOF. The command `REV` from its word (40_bitrev.md R49). -/

namespace Sys2Proof

/-- The decoder on a word with the opcode of `REV`: the must-be-zero bits, then the count. -/
theorem decode_rev {cmd : CmdWord} (hop : opOf cmd = 0x08#8) :
    decode cmd =
      if cmd.extractLsb' 38 26 ≠ 0#26 then .error .mustBeZeroBit
      else if (cmd.extractLsb' 32 6).toNat ≤ 32 then .ok (.rev (cmd.extractLsb' 32 6) (cmd.extractLsb' 0 32))
      else .error .revCount := by
  have hrev : opcodeOf (opOf cmd) = some .rev := (opcodeOf_eq_some_iff _ _).mpr hop
  have hoperands : operandsOf .rev (argOf cmd) = .rev (cmd.extractLsb' 32 6) (cmd.extractLsb' 0 32) := by
    rw [operandsOf, slice_argOf cmd 32 6 (by decide), slice_argOf cmd 0 32 (by decide)]
  simp only [decode_of_opcode hrev, hoperands, ne_eq, mbz_rev_iff, Instr.wellFormed, decide_eq_true_eq]

namespace Machine

/-- `REV` of a legal count answers the reversed value and changes nothing else. -/
theorem exec_rev_of_le {n : BitVec 6} (h : n.toNat ≤ 32) (value : BitVec 32) (s : State) :
    exec (.rev n value) s = .next (emit (rspWord .ok (BitVec.ofNat 64 (reverseBits value.toNat n.toNat))) s) := by
  have hmax : ¬Config.revMax < n.toNat := not_lt.mpr h
  calc exec (.rev n value) s
    _ = answer _ s := execRev_eq_answer n value s
    _ = _ := by rw [if_neg hmax]; exact respond_eq_next _ s

/-- Settles O20: along the decoder's two checks on a `REV` word, each refusal a step that answers ILLEGAL. -/
theorem revCommandWordFollowsItsRule : Obligations.RevCommandWordFollowsItsRule := by
  intro s cmd rest h hop
  have hd := decode_rev hop
  split_ifs at hd with hmbz hcount
  · rw [if_pos (.inl hmbz)]
    exact step_of_decode_error h hd
  · rw [if_neg (not_or.mpr ⟨hmbz, not_lt.mpr hcount⟩)]
    exact (step_of_decode_ok h hd).trans (exec_rev_of_le hcount _ _)
  · rw [if_pos (.inr (not_le.mp hcount))]
    exact step_of_decode_error h hd

end Machine
end Sys2Proof
end

section
/-! SUPPORT and PROOF. The generic engine on any record (41_crc.md R51 to R55): the bit step, the order of a byte's bits, the fold
over the data, and finishing. -/

namespace Sys2Proof.Machine

theorem crcBit_toNat {w : Nat} (P : CrcParams w) (rem : BitVec w) (bit : Bool) :
    (crcBit P rem bit).toNat =
      (2 * rem.toNat % 2 ^ w) ^^^ (if rem.toNat.testBit (w - 1) ≠ bit then P.poly.toNat else 0) := by
  rw [crcBit_eq_shift_xor, BitVec.toNat_xor, BitVec.toNat_shiftLeft, Nat.shiftLeft_eq, Nat.pow_one, Nat.mul_comm,
    apply_ite BitVec.toNat]
  rfl

/-- Settles O22: the mask form of the bit step is a shift and a reduction. -/
theorem crcBitStepShiftsAndReduces : Obligations.CrcBitStepShiftsAndReduces := crcBit_toNat

theorem crcUpdate_concat {w : Nat} (P : CrcParams w) (rem : BitVec w) (x : List Byte) (d : Byte) :
    crcUpdate P rem (x ++ [d]) = crcByte P (crcUpdate P rem x) d :=
  List.foldl_concat _ _ _ _

theorem crcUpdate_append {w : Nat} (P : CrcParams w) (rem : BitVec w) (x y : List Byte) :
    crcUpdate P rem (x ++ y) = crcUpdate P (crcUpdate P rem x) y :=
  List.foldl_append

/-- Settles O23: `crcUpdate` is a left fold over the bytes. -/
theorem crcOfSplitDataContinues : Obligations.CrcOfSplitDataContinues := fun P rem x y d =>
  ⟨rfl, crcUpdate_concat P rem x d, crcUpdate_append P rem x y, rfl, rfl⟩

/-! ### The order of a byte's bits -/

/-- The bits of a reversed byte from 7 down are the byte's own bits from 0 up. -/
theorem map_getLsbD_reverseWord (d : Byte) :
    [7, 6, 5, 4, 3, 2, 1, 0].map (reverseWord d).getLsbD = [0, 1, 2, 3, 4, 5, 6, 7].map d.getLsbD := by
  simp only [List.map_cons, List.map_nil, reverseWord_getLsbD]
  rfl

theorem crcByte_eq_foldl_of_refin {w : Nat} {P : CrcParams w} (h : P.refin = true) (rem : BitVec w) (d : Byte) :
    crcByte P rem d = [0, 1, 2, 3, 4, 5, 6, 7].foldl (fun r i => crcBit P r (d.getLsbD i)) rem := by
  unfold crcByte
  rw [if_pos h, ← List.foldl_map (f := (reverseWord d).getLsbD) (g := crcBit P), map_getLsbD_reverseWord, List.foldl_map]

theorem crcByte_eq_foldl_of_not_refin {w : Nat} {P : CrcParams w} (h : ¬P.refin = true) (rem : BitVec w) (d : Byte) :
    crcByte P rem d = [7, 6, 5, 4, 3, 2, 1, 0].foldl (fun r i => crcBit P r (d.getLsbD i)) rem := by
  unfold crcByte
  rw [if_neg h]

/-- Settles O4: on the reversed byte the bits are counted down, which on the byte itself counts them up. -/
theorem messageByteEntersBitByBit : Obligations.MessageByteEntersBitByBit := by
  intro w P rem d
  refine ⟨crcByte_eq_foldl_testBit P rem d, ?_⟩
  by_cases h : P.refin = true
  · rw [if_pos h]
    exact crcByte_eq_foldl_of_refin h rem d
  · rw [if_neg h]
    exact crcByte_eq_foldl_of_not_refin h rem d

/-! ### Finishing -/

theorem reverseWord_reverseWord {w : Nat} (v : BitVec w) : reverseWord (reverseWord v) = v := by
  apply BitVec.eq_of_toNat_eq
  rw [reverseWord_toNat, reverseWord_toNat, reverseBits_reverseBits v.isLt]

theorem reverseWord_xor {w : Nat} (a b : BitVec w) : reverseWord (a ^^^ b) = reverseWord a ^^^ reverseWord b := by
  apply BitVec.eq_of_toNat_eq
  simp only [BitVec.toNat_xor, reverseWord_toNat, reverseBits_bitwise Nat.testBit_xor rfl]

theorem xor_xor_cancel {w : Nat} (a b : BitVec w) : a ^^^ b ^^^ b = a := by
  rw [BitVec.xor_assoc, BitVec.xor_self, BitVec.xor_zero]

/-- R54's inverse: undo the XOR, then reverse back. -/
theorem toNat_eq_of_crcFinish {w : Nat} (P : CrcParams w) (rem : BitVec w) :
    rem.toNat =
      if P.refout then reverseBits (crcFinish P rem ^^^ P.xorout).toNat w else (crcFinish P rem ^^^ P.xorout).toNat := by
  rw [crcFinish, xor_xor_cancel]
  split
  · rw [← reverseWord_toNat, reverseWord_reverseWord]
  · rfl

theorem crcFinish_injective {w : Nat} (P : CrcParams w) : Function.Injective (crcFinish P) := by
  intro a b h
  apply BitVec.eq_of_toNat_eq
  rw [toNat_eq_of_crcFinish P a, toNat_eq_of_crcFinish P b, h]

/-- Settles O24: the inverse makes finishing one-to-one, and there are as many results as remainders. -/
theorem crcFinishIsInvertible : Obligations.CrcFinishIsInvertible := fun P =>
  ⟨crcFinish_toNat P, toNat_eq_of_crcFinish P, Finite.injective_iff_bijective.mp (crcFinish_injective P)⟩

end Sys2Proof.Machine
end

section
/-! SUPPORT and PROOF. The engine at CRC16B (41_crc.md R57) and the checksum bytes (41_crc.md R58). -/

namespace Sys2Proof.Machine

theorem crcFinish_crc16b (rem : BitVec 16) : crcFinish crc16b rem = reverseWord rem ^^^ 0xFFFF#16 := rfl

/-- All ones are their own mirror image, so the final XOR may also come before the reversal. -/
theorem crcFinish_crc16b_eq_reverseWord (rem : BitVec 16) : crcFinish crc16b rem = reverseWord (rem ^^^ 0xFFFF#16) := by
  have hones : reverseWord 0xFFFF#16 = 0xFFFF#16 := by decide
  rw [crcFinish_crc16b, reverseWord_xor, hones]

/-- Settles O25: the generic equations at the record's values. -/
theorem crc16bIsTheNamedInstance : Obligations.Crc16bIsTheNamedInstance := by
  refine ⟨rfl, ParamRecord.params?_crc16bRecord, crcBit_eq_shift_xor crc16b, crcByte_eq_foldl_testBit crc16b,
    fun rem => ⟨crcFinish_toNat crc16b rem, ?_⟩, fun data => rfl⟩
  rw [crcFinish_crc16b_eq_reverseWord, reverseWord_toNat]

/-- The two bytes of a 16-bit word are its low and its high half. -/
theorem leBytes_two_eq_slices (c : BitVec 16) : leBytes c.toNat 2 = [c.extractLsb' 0 8, c.extractLsb' 8 8] :=
  leBytes_eq_map_range c.toNat 2

/-- Settles O26: the checksum is the two bytes of the CRC word. -/
theorem checksumEmitsLowByteFirst : Obligations.ChecksumEmitsLowByteFirst :=
  ⟨fun data => leBytes_two_eq_slices (crc16bOf data), by decide⟩

end Sys2Proof.Machine
end

section
/-! SUPPORT and PROOF. The four CRC commands from their words (41_crc.md R59 to R62). -/

namespace Sys2Proof

/-- The decoder on a word of a command without operands: every bit of `arg` must be zero. -/
theorem decode_of_no_operands {cmd : CmdWord} {op : Opcode} {i : Instr} (hop : opOf cmd = op.code)
    (hmask : mbzMask op = BitVec.allOnes 64) (hoperands : ∀ arg, operandsOf op arg = i) (hwf : i.wellFormed = true) :
    decode cmd = if cmd.extractLsb' 0 64 ≠ 0#64 then .error .mustBeZeroBit else .ok i := by
  have hassigned : opcodeOf (opOf cmd) = some op := (opcodeOf_eq_some_iff _ _).mpr hop
  rw [decode_of_opcode hassigned, hmask, BitVec.and_allOnes, hoperands, if_pos hwf]
  rfl

theorem decode_crcInit {cmd : CmdWord} (hop : opOf cmd = 0x01#8) :
    decode cmd = if cmd.extractLsb' 0 64 ≠ 0#64 then .error .mustBeZeroBit else .ok .crcInit :=
  decode_of_no_operands (op := .crcInit) hop rfl (fun _ => rfl) rfl

theorem decode_crcRead {cmd : CmdWord} (hop : opOf cmd = 0x03#8) :
    decode cmd = if cmd.extractLsb' 0 64 ≠ 0#64 then .error .mustBeZeroBit else .ok .crcRead :=
  decode_of_no_operands (op := .crcRead) hop rfl (fun _ => rfl) rfl

theorem decode_crcSum {cmd : CmdWord} (hop : opOf cmd = 0x04#8) :
    decode cmd = if cmd.extractLsb' 0 64 ≠ 0#64 then .error .mustBeZeroBit else .ok .crcSum :=
  decode_of_no_operands (op := .crcSum) hop rfl (fun _ => rfl) rfl

theorem mbz_crcByte_iff (cmd : CmdWord) : argOf cmd &&& mbzMask .crcByte = 0 ↔ cmd.extractLsb' 8 56 = 0#56 := by
  rw [and_mask_eq_zero_iff _ (mbzMask .crcByte) 8 56 (by decide), slice_argOf cmd 8 56 (by decide)]

/-- The decoder on a word of `CRC.BYTE`: the byte is the lowest of `arg`, the bits above it must be zero. -/
theorem decode_crcByte {cmd : CmdWord} (hop : opOf cmd = 0x02#8) :
    decode cmd =
      if cmd.extractLsb' 8 56 ≠ 0#56 then .error .mustBeZeroBit else .ok (.crcByte (cmd.extractLsb' 0 8)) := by
  have hassigned : opcodeOf (opOf cmd) = some .crcByte := (opcodeOf_eq_some_iff _ _).mpr hop
  have hoperands : operandsOf .crcByte (argOf cmd) = .crcByte (cmd.extractLsb' 0 8) := by
    rw [operandsOf, slice_argOf cmd 0 8 (by decide)]
  have hwf : (Instr.crcByte (cmd.extractLsb' 0 8)).wellFormed = true := rfl
  simp only [decode_of_opcode hassigned, ne_eq, mbz_crcByte_iff, hoperands, if_pos hwf]

namespace Machine

/-- A step on a word that only the must-be-zero check can refuse. -/
theorem step_of_mbz_check {s : State} {cmd : CmdWord} {rest : List PortEvent} {i : Instr} {mbz : Prop} [Decidable mbz]
    (h : s.inputs = .command cmd :: rest) (hd : decode cmd = if mbz then .error .mustBeZeroBit else .ok i) :
    step s =
      if mbz then .next (emit (rspWord (.fault .illegal) 0) { s with inputs := rest })
      else exec i { s with inputs := rest } := by
  split_ifs at hd ⊢
  · exact step_of_decode_error h hd
  · exact step_of_decode_ok h hd

/-- The same for a command that leaves `REM`: the check only selects the response. -/
theorem step_of_mbz_check_answer {s : State} {cmd : CmdWord} {rest : List PortEvent} {i : Instr} {mbz : Prop} [Decidable mbz]
    {rsp : RspWord} (h : s.inputs = .command cmd :: rest)
    (hd : decode cmd = if mbz then .error .mustBeZeroBit else .ok i)
    (hexec : exec i { s with inputs := rest } = .next (emit rsp { s with inputs := rest })) :
    step s = .next { s with
      inputs := rest, responses := s.responses ++ [if mbz then rspWord (.fault .illegal) 0 else rsp] } := by
  rw [step_of_mbz_check h hd, hexec]
  split <;> rfl

/-- Settles O29: a legal word is `CRC.INIT`, whatever `REM` was. -/
theorem crcInitCommandWordFollowsItsRule : Obligations.CrcInitCommandWordFollowsItsRule :=
  fun _ _ _ h hop => step_of_mbz_check h (decode_crcInit hop)

/-- Settles O30: a legal word is `CRC.BYTE` of the lowest byte of `arg`. -/
theorem crcByteCommandWordFollowsItsRule : Obligations.CrcByteCommandWordFollowsItsRule :=
  ⟨fun _ _ _ h hop => step_of_mbz_check h (decode_crcByte hop), by decide, by decide⟩

/-- Settles O31: the response is the finished remainder, and R54's inverse gets `REM` back from it. -/
theorem crcReadCommandWordFollowsItsRule : Obligations.CrcReadCommandWordFollowsItsRule := fun s _ _ h hop =>
  ⟨remCrc s, crcFinish_toNat crc16b s.rem, toNat_eq_of_crcFinish crc16b s.rem,
    step_of_mbz_check_answer h (decode_crcRead hop) rfl⟩

theorem sumLane_eq_setWidth (c : BitVec 16) : sumLane c = c.setWidth 64 := by
  apply BitVec.eq_of_toNat_eq
  rw [toNat_sumLane, BitVec.toNat_setWidth_of_le (by decide)]

/-- Settles O32: the lane of `CRC.SUM` holds the two bytes, and as a number it is that of `CRC.READ`. -/
theorem crcSumCommandWordFollowsItsRule : Obligations.CrcSumCommandWordFollowsItsRule := fun s _ _ h hop =>
  ⟨sumLane (remCrc s), leBytes_eq_slices_sumLane (remCrc s), sumLane_eq_setWidth (remCrc s),
    step_of_mbz_check_answer h (decode_crcSum hop) rfl⟩

end Machine
end Sys2Proof
end

section
/-! SUPPORT and PROOF. The laws of the byte step (41_crc.md R64, R65): XOR-linearity, from which the reflected form and the residue
follow on one-bit words alone, and the inverse of the bit step. -/

namespace Sys2Proof.Machine

/-! ### Linearity -/

/-- Adding a word under a condition is linear in the condition. -/
theorem ite_xor {w : Nat} (p : BitVec w) (a b : Bool) :
    (if (a ^^ b) = true then p else 0#w) = (if a = true then p else 0#w) ^^^ (if b = true then p else 0#w) := by
  cases a <;> cases b <;> simp

theorem crcBit_eq_shift_xor_ite {w : Nat} (P : CrcParams w) (rem : BitVec w) (bit : Bool) :
    crcBit P rem bit = (rem <<< 1) ^^^ (if (rem.getLsbD (w - 1) ^^ bit) = true then P.poly else 0#w) := by
  simp only [crcBit_eq_shift_xor, Bool.xor_iff_ne]

/-- The bit step is linear in the remainder and the data bit together. -/
theorem crcBit_xor {w : Nat} (P : CrcParams w) (r1 r2 : BitVec w) (b1 b2 : Bool) :
    crcBit P (r1 ^^^ r2) (b1 ^^ b2) = crcBit P r1 b1 ^^^ crcBit P r2 b2 := by
  simp only [crcBit_eq_shift_xor_ite, BitVec.shiftLeft_xor_distrib, BitVec.getLsbD_xor, ite_xor]
  ac_rfl

theorem foldl_crcBit_xor {w : Nat} (P : CrcParams w) (b1 b2 : Byte) (places : List Nat) (r1 r2 : BitVec w) :
    places.foldl (fun r i => crcBit P r ((b1 ^^^ b2).getLsbD i)) (r1 ^^^ r2) =
      places.foldl (fun r i => crcBit P r (b1.getLsbD i)) r1 ^^^
        places.foldl (fun r i => crcBit P r (b2.getLsbD i)) r2 := by
  induction places generalizing r1 r2 with
  | nil => rfl
  | cons i is ih => simp only [List.foldl_cons, BitVec.getLsbD_xor, crcBit_xor, ← ih]

/-- The byte step is linear in the remainder and the byte together. -/
theorem crcByte_xor {w : Nat} (P : CrcParams w) (r1 r2 : BitVec w) (d1 d2 : Byte) :
    crcByte P (r1 ^^^ r2) (d1 ^^^ d2) = crcByte P r1 d1 ^^^ crcByte P r2 d2 := by
  by_cases h : P.refin = true
  · simp only [crcByte_eq_foldl_of_refin h, foldl_crcBit_xor]
  · simp only [crcByte_eq_foldl_of_not_refin h, foldl_crcBit_xor]

theorem crcUpdate_pair_xor {w : Nat} (P : CrcParams w) (r1 r2 : BitVec w) (lo1 hi1 lo2 hi2 : Byte) :
    crcUpdate P (r1 ^^^ r2) [lo1 ^^^ lo2, hi1 ^^^ hi2] =
      crcUpdate P r1 [lo1, hi1] ^^^ crcUpdate P r2 [lo2, hi2] := by
  simp only [crcUpdate, List.foldl_cons, List.foldl_nil, crcByte_xor]

/-! ### The reflected form -/

/-- One right shift of the reflected form (41_crc.md R64). -/
def reflectedShift (q : BitVec 16) : BitVec 16 := (q >>> 1) ^^^ (if q.getLsbD 0 then 0x8408#16 else 0#16)

theorem reflectedByte_eq_iterate (q : BitVec 16) (d : Byte) :
    reflectedByte q d = Nat.iterate reflectedShift 8 (q ^^^ d.setWidth 16) := rfl

theorem reflectedShift_xor (a b : BitVec 16) : reflectedShift (a ^^^ b) = reflectedShift a ^^^ reflectedShift b := by
  simp only [reflectedShift, BitVec.ushiftRight_xor_distrib, BitVec.getLsbD_xor, ite_xor]
  ac_rfl

theorem iterate_reflectedShift_xor (n : Nat) (a b : BitVec 16) :
    Nat.iterate reflectedShift n (a ^^^ b) = Nat.iterate reflectedShift n a ^^^ Nat.iterate reflectedShift n b := by
  induction n generalizing a b with
  | zero => rfl
  | succ n ih => simp only [Function.iterate_succ_apply, reflectedShift_xor, ih]

theorem reflectedByte_xor (q1 q2 : BitVec 16) (d1 d2 : Byte) :
    reflectedByte (q1 ^^^ q2) (d1 ^^^ d2) = reflectedByte q1 d1 ^^^ reflectedByte q2 d2 := by
  simp only [reflectedByte_eq_iterate, ← iterate_reflectedShift_xor, BitVec.setWidth_xor]
  congr 1
  ac_rfl

/-- Two functions of a remainder and a byte that are linear in both together agree when they do on one-bit remainders and on
one-bit bytes. -/
theorem additive_pair_ext {f g : BitVec 16 → Byte → BitVec 16}
    (hf : ∀ r1 r2 d1 d2, f (r1 ^^^ r2) (d1 ^^^ d2) = f r1 d1 ^^^ f r2 d2)
    (hg : ∀ r1 r2 d1 d2, g (r1 ^^^ r2) (d1 ^^^ d2) = g r1 d1 ^^^ g r2 d2)
    (hrem : ∀ i : Fin 16, f (BitVec.twoPow 16 i) 0#8 = g (BitVec.twoPow 16 i) 0#8)
    (hbyte : ∀ i : Fin 8, f 0#16 (BitVec.twoPow 8 i) = g 0#16 (BitVec.twoPow 8 i)) (r : BitVec 16) (d : Byte) :
    f r d = g r d := by
  have left : f r 0#8 = g r 0#8 :=
    additive_ext (f · 0#8) (g · 0#8) (fun a b => hf a b 0#8 0#8) (fun a b => hg a b 0#8 0#8) hrem r
  have right : f 0#16 d = g 0#16 d :=
    additive_ext (f 0#16) (g 0#16) (hf 0#16 0#16) (hg 0#16 0#16) hbyte d
  calc f r d
    _ = f (r ^^^ 0#16) (0#8 ^^^ d) := by rw [BitVec.xor_zero, BitVec.zero_xor]
    _ = g (r ^^^ 0#16) (0#8 ^^^ d) := by rw [hf, hg, left, right]
    _ = g r d := by rw [BitVec.xor_zero, BitVec.zero_xor]

theorem crcByte_eq_reflectedByte (rem : BitVec 16) (d : Byte) :
    crcByte crc16b rem d = reverseWord (reflectedByte (reverseWord rem) d) := by
  refine additive_pair_ext (g := fun r d => reverseWord (reflectedByte (reverseWord r) d)) (crcByte_xor crc16b)
    (fun r1 r2 d1 d2 => ?_) (by decide) (by decide) rem d
  simp only [reverseWord_xor, reflectedByte_xor]

/-- Settles O34: both forms are linear, and they agree on one-bit words. -/
theorem reflectedByteStepAgrees : Obligations.ReflectedByteStepAgrees :=
  ⟨crcByte_eq_reflectedByte, crcFinish_crc16b, by decide⟩

/-! ### Invertibility -/

/-- Bit 0 of the polynomial is 1 and the shift leaves bit 0 clear, so bit 0 tells whether the step reduced. -/
theorem crcBit_crc16b_getLsbD_zero (rem : BitVec 16) (bit : Bool) :
    (crcBit crc16b rem bit).getLsbD 0 = (rem.getLsbD 15 ^^ bit) := by
  have hshift : (rem <<< 1).getLsbD 0 = false := by simp
  rw [crcBit_eq_shift_xor_ite, BitVec.getLsbD_xor, hshift, Bool.false_xor]
  cases rem.getLsbD 15 ^^ bit <;> rfl

/-- A left shift loses the top bit alone. -/
theorem shiftLeft_ushiftRight_or_top (rem : BitVec 16) :
    (rem <<< 1) >>> 1 ||| (if rem.getLsbD 15 = true then 0x8000#16 else 0#16) = rem := by
  have htwoPow : (0x8000#16) = BitVec.twoPow 16 15 := by decide
  apply BitVec.eq_of_getLsbD_eq
  intro i hi
  rw [htwoPow, BitVec.getLsbD_or, BitVec.getLsbD_ushiftRight, BitVec.getLsbD_shiftLeft, apply_ite (BitVec.getLsbD · i),
    BitVec.getLsbD_twoPow, BitVec.getLsbD_zero]
  by_cases h : i = 15
  · subst h
    simp
  · have hlow : 1 + i < 16 := by omega
    simp [hlow, Ne.symm h]

/-- R65 (b): undo the reduction, shift back, and put the top bit back from bit 0 and the data bit. -/
theorem eq_of_crcBit_crc16b (rem : BitVec 16) (bit : Bool) :
    rem =
      ((crcBit crc16b rem bit ^^^ (if (crcBit crc16b rem bit).getLsbD 0 then 0x1021#16 else 0#16)) >>> 1) |||
        (if (crcBit crc16b rem bit).getLsbD 0 ≠ bit then 0x8000#16 else 0#16) := by
  have hshifted : crcBit crc16b rem bit ^^^ (if (rem.getLsbD 15 ^^ bit) = true then 0x1021#16 else 0#16) = rem <<< 1 := by
    rw [crcBit_eq_shift_xor_ite]
    exact xor_xor_cancel _ _
  have htop : (rem.getLsbD 15 ^^ bit) ≠ bit ↔ rem.getLsbD 15 = true := by
    rw [← Bool.xor_iff_ne, Bool.xor_assoc, Bool.xor_self, Bool.xor_false]
  simp only [crcBit_crc16b_getLsbD_zero, hshifted, htop, shiftLeft_ushiftRight_or_top]

theorem crcBit_crc16b_injective (bit : Bool) : Function.Injective fun r => crcBit crc16b r bit := by
  intro a b h
  have hstep : crcBit crc16b a bit = crcBit crc16b b bit := h
  rw [eq_of_crcBit_crc16b a bit, hstep, ← eq_of_crcBit_crc16b b bit]

theorem foldl_injective {α β : Type} {f : α → β → α} (hf : ∀ b, Function.Injective fun a => f a b) (bs : List β) :
    Function.Injective fun a => bs.foldl f a := by
  induction bs with
  | nil => exact Function.injective_id
  | cons b bs ih => exact ih.comp (hf b)

theorem crcByte_crc16b_bijective (d : Byte) : Function.Bijective fun r => crcByte crc16b r d :=
  Finite.injective_iff_bijective.mp (foldl_injective (fun _ => crcBit_crc16b_injective _) _)

/-! ### Two bytes, and the residue -/

/-- With the low byte clear the reflected form only shifts. -/
theorem iterate_reflectedShift_append_zero (b : Byte) : Nat.iterate reflectedShift 8 (b ++ 0#8) = 0#8 ++ b := by
  refine additive_ext (fun b : Byte => Nat.iterate reflectedShift 8 (b ++ 0#8)) (fun b => 0#8 ++ b)
    (fun a b => ?_) (fun a b => ?_) (by decide) b
  · rw [← iterate_reflectedShift_xor, BitVec.xor_append, BitVec.xor_self]
  · rw [BitVec.xor_append, BitVec.xor_self]

/-- A byte that mirrors the remainder's upper byte cancels it; what is left is the lower byte, moved up. -/
theorem crcByte_reverseWord_append (hi d : Byte) :
    crcByte crc16b (reverseWord (hi ++ d)) d = reverseWord (0#8 ++ hi) := by
  have hzext : d.setWidth 16 = 0#8 ++ d := BitVec.setWidth_eq_append (by decide)
  have hcancel : hi ++ d ^^^ d.setWidth 16 = hi ++ 0#8 := by
    rw [hzext, BitVec.xor_append, BitVec.xor_zero, BitVec.xor_self]
  rw [crcByte_eq_reflectedByte, reverseWord_reverseWord, reflectedByte_eq_iterate, hcancel,
    iterate_reflectedShift_append_zero]

theorem crcUpdate_reverseWord_append (lo hi : Byte) : crcUpdate crc16b (reverseWord (hi ++ lo)) [lo, hi] = 0#16 :=
  calc crcUpdate crc16b (reverseWord (hi ++ lo)) [lo, hi]
    _ = crcByte crc16b (crcByte crc16b (reverseWord (hi ++ lo)) lo) hi := rfl
    _ = 0#16 := by
      rw [crcByte_reverseWord_append, crcByte_reverseWord_append]
      decide

/-- Absorbing two bytes is adding the mirror image of their 16-bit word and then absorbing two zero bytes. -/
theorem crcUpdate_two_bytes (rem : BitVec 16) (lo hi : Byte) :
    crcUpdate crc16b rem [lo, hi] = crcUpdate crc16b (rem ^^^ reverseWord (hi ++ lo)) [0#8, 0#8] := by
  have hsum := crcUpdate_pair_xor crc16b rem (reverseWord (hi ++ lo)) lo hi lo hi
  rw [BitVec.xor_self, BitVec.xor_self, crcUpdate_reverseWord_append, BitVec.xor_zero] at hsum
  exact hsum.symm

/-- A 16-bit word is its high half over its low half. -/
theorem append_halves (c : BitVec 16) : c.extractLsb' 8 8 ++ c.extractLsb' 0 8 = c :=
  (slice_glue c 0 8 8 8 rfl).trans slice_all

/-- R65 (c): whatever the remainder was, its checksum bytes make it all ones before the two zero bytes. -/
theorem crcUpdate_checksum (rem : BitVec 16) :
    crcUpdate crc16b rem (leBytes (crcFinish crc16b rem).toNat 2) = 0x1D0F#16 := by
  have hones : rem ^^^ reverseWord (crcFinish crc16b rem) = 0xFFFF#16 := by
    rw [crcFinish_crc16b_eq_reverseWord, reverseWord_reverseWord, ← BitVec.xor_assoc, BitVec.xor_self, BitVec.zero_xor]
  rw [leBytes_two_eq_slices, crcUpdate_two_bytes, append_halves, hones]
  decide

theorem crcUpdate_append_soundbankChecksum (m : List Byte) :
    crcUpdate crc16b 0xFFFF (m ++ soundbankChecksum m) = 0x1D0F#16 :=
  (crcUpdate_append crc16b 0xFFFF m _).trans (crcUpdate_checksum _)

/-- Settles O35: linearity bit by bit, the inverse of the bit step, and a residue into which the
remainder before the checksum bytes does not enter. -/
theorem byteStepIsLinearInvertibleWithResidue : Obligations.ByteStepIsLinearInvertibleWithResidue :=
  ⟨⟨crcByte_xor crc16b, by decide⟩, ⟨crcByte_crc16b_bijective, eq_of_crcBit_crc16b⟩,
    crcUpdate_append_soundbankChecksum, by decide⟩

end Sys2Proof.Machine
end

section
/-! SUPPORT and PROOF. The commands compute the document's function (41_crc.md R63): `REM` follows the message along any events, and
two bytes reach every value of `REM` exactly once. -/

namespace Sys2Proof.Machine

/-! ### One event -/

theorem absorbEvent_of_decode_error {cmd : CmdWord} {e : DecodeRefusal} (hd : decode cmd = .error e) (message : List Byte) :
    absorbEvent message (.command cmd) = message := by
  simp only [absorbEvent, hd]

theorem absorbEvent_of_crcInit {cmd : CmdWord} (hd : decode cmd = .ok .crcInit) (message : List Byte) :
    absorbEvent message (.command cmd) = [] := by
  simp only [absorbEvent, hd]

theorem absorbEvent_of_crcByte {cmd : CmdWord} {d : Byte} (hd : decode cmd = .ok (.crcByte d)) (message : List Byte) :
    absorbEvent message (.command cmd) = message ++ [d] := by
  simp only [absorbEvent, hd]

/-- Every command but `CRC.INIT` and `CRC.BYTE` leaves the message as it is. -/
theorem absorbEvent_of_other {cmd : CmdWord} {i : Instr} (hd : decode cmd = .ok i) (hinit : i.opcode ≠ .crcInit)
    (hbyte : i.opcode ≠ .crcByte) (message : List Byte) : absorbEvent message (.command cmd) = message := by
  cases i with
  | crcInit => exact absurd rfl hinit
  | crcByte d => exact absurd rfl hbyte
  | _ => simp only [absorbEvent, hd]

/-- Every command but `CRC.INIT` and `CRC.BYTE` emits one response and changes nothing else. -/
theorem exec_other_emits {i : Instr} (hinit : i.opcode ≠ .crcInit) (hbyte : i.opcode ≠ .crcByte) (s : State) :
    ∃ rsp, exec i s = .next (emit rsp s) := by
  have of_pure (hi : i.opcode.code ∈ [0x08#8, 0x10#8, 0x11#8]) : ∃ rsp, exec i s = .next (emit rsp s) := by
    obtain ⟨rsp, hexec⟩ := exec_pure_emits hi
    exact ⟨rsp, hexec s⟩
  cases i with
  | crcInit => exact absurd rfl hinit
  | crcByte d => exact absurd rfl hbyte
  | crcRead => exact ⟨_, rfl⟩
  | crcSum => exact ⟨_, rfl⟩
  | rev n value => exact of_pure (show Opcode.rev.code ∈ _ by decide)
  | mwfDec version word => exact of_pure (show Opcode.mwfDec.code ∈ _ by decide)
  | mwfEnc codec8 channels8 rate24 align8 bps8 ignored => exact of_pure (show Opcode.mwfEnc.code ∈ _ by decide)

/-- `REM` is the remainder of the message. -/
def HoldsMessage (message : List Byte) (s : State) : Prop := s.rem = crcUpdate crc16b 0xFFFF message

theorem HoldsMessage.crcByte {message : List Byte} {s : State} (h : HoldsMessage message s) (d : Byte) :
    crcByte crc16b s.rem d = crcUpdate crc16b 0xFFFF (message ++ [d]) := by
  rw [crcUpdate_concat, ← h]

/-- A command keeps `REM` at the remainder of the message, as its word changes the message. -/
theorem exec_keeps_holdsMessage {cmd : CmdWord} {i : Instr} (hd : decode cmd = .ok i) {s : State} {message : List Byte}
    (hrem : HoldsMessage message s) :
    ∃ t, exec i s = .next t ∧ t.inputs = s.inputs ∧ HoldsMessage (absorbEvent message (.command cmd)) t := by
  have of_other (hinit : i.opcode ≠ .crcInit) (hbyte : i.opcode ≠ .crcByte) :
      ∃ t, exec i s = .next t ∧ t.inputs = s.inputs ∧ HoldsMessage (absorbEvent message (.command cmd)) t := by
    obtain ⟨rsp, hexec⟩ := exec_other_emits hinit hbyte s
    rw [absorbEvent_of_other hd hinit hbyte]
    exact ⟨_, hexec, rfl, hrem⟩
  cases i with
  | crcInit =>
    rw [absorbEvent_of_crcInit hd]
    exact ⟨_, rfl, rfl, rfl⟩
  | crcByte d =>
    rw [absorbEvent_of_crcByte hd]
    exact ⟨_, rfl, rfl, hrem.crcByte d⟩
  | _ => exact of_other nofun nofun

/-- A step keeps `REM` at the remainder of the message, as the event it takes changes the message. -/
theorem step_keeps_holdsMessage {s : State} {e : PortEvent} {rest : List PortEvent} {message : List Byte}
    (h : s.inputs = e :: rest) (hrem : HoldsMessage message s) :
    ∃ t, step s = .next t ∧ t.inputs = rest ∧ HoldsMessage (absorbEvent message e) t := by
  cases e with
  | reset => exact ⟨_, step_of_reset h, rfl, rfl⟩
  | command cmd =>
    cases hd : decode cmd with
    | ok i =>
      rw [step_of_decode_ok h hd]
      exact exec_keeps_holdsMessage hd (s := { s with inputs := rest }) hrem
    | error e =>
      rw [absorbEvent_of_decode_error hd]
      exact ⟨_, step_of_decode_error h hd, rfl, hrem⟩

/-! ### Runs -/

/-- Along a run over the presented events `REM` is the remainder of the bytes they leave in the message. -/
theorem runSteps_keeps_holdsMessage (events : List PortEvent) {s : State} {message : List Byte} (h : s.inputs = events)
    (hrem : HoldsMessage message s) :
    ∃ t, runSteps events.length s = .next t ∧ t.inputs = [] ∧ HoldsMessage (absorbed message events) t := by
  induction events generalizing s message with
  | nil => exact ⟨s, rfl, h, hrem⟩
  | cons e rest ih =>
    obtain ⟨u, hstep, hinputs, hu⟩ := step_keeps_holdsMessage h hrem
    obtain ⟨t, hrun, ht⟩ := ih hinputs hu
    exact ⟨t, (runSteps_succ hstep).trans hrun, ht⟩

/-- A reset or `CRC.INIT` starts the empty message, whatever `REM` was. -/
theorem step_starts_message {s : State} {first : PortEvent} {rest : List PortEvent}
    (hfirst : first = .reset ∨ first = .command (encode .crcInit)) (h : s.inputs = first :: rest) :
    ∃ t, step s = .next t ∧ t.inputs = rest ∧ HoldsMessage [] t := by
  rcases hfirst with rfl | rfl
  · exact ⟨_, step_of_reset h, rfl, rfl⟩
  · exact ⟨_, step_crcInit h, rfl, rfl⟩

theorem runSteps_from_start {s : State} {first : PortEvent} {events : List PortEvent}
    (hfirst : first = .reset ∨ first = .command (encode .crcInit)) (h : s.inputs = first :: events) :
    ∃ t, runSteps (events.length + 1) s = .next t ∧ t.inputs = [] ∧ HoldsMessage (absorbed [] events) t := by
  obtain ⟨u, hstep, hinputs, hu⟩ := step_starts_message hfirst h
  obtain ⟨t, hrun, ht⟩ := runSteps_keeps_holdsMessage events hinputs hu
  exact ⟨t, (runSteps_succ hstep).trans hrun, ht⟩

/-! ### Reachability -/

theorem crcUpdate_zeros_bijective : Function.Bijective fun r => crcUpdate crc16b r [0#8, 0#8] :=
  (crcByte_crc16b_bijective 0#8).comp (crcByte_crc16b_bijective 0#8)

/-- Two bytes, the first one low, are the halves of one 16-bit word. -/
theorem append_bytes_bijective : Function.Bijective fun p : Byte × Byte => p.2 ++ p.1 := by
  refine Function.bijective_iff_has_inverse.mpr ⟨fun c => (c.extractLsb' 0 8, c.extractLsb' 8 8), ?_, append_halves⟩
  rintro ⟨lo, hi⟩
  exact Prod.ext ((slice_append_low (by decide)).trans slice_all) ((slice_append_high (by decide)).trans slice_all)

theorem reverseWord_bijective (w : Nat) : Function.Bijective (reverseWord (w := w)) :=
  Function.Involutive.bijective reverseWord_reverseWord

theorem xor_left_bijective {w : Nat} (a : BitVec w) : Function.Bijective fun b => a ^^^ b := by
  refine Function.Involutive.bijective fun b => ?_
  rw [← BitVec.xor_assoc, BitVec.xor_self, BitVec.zero_xor]

/-- From any remainder the two-byte messages reach every remainder exactly once: each part of `crcUpdate_two_bytes` is a
bijection. -/
theorem crcUpdate_pair_bijective (rem : BitVec 16) :
    Function.Bijective fun p : Byte × Byte => crcUpdate crc16b rem [p.1, p.2] := by
  have hword : Function.Bijective fun p : Byte × Byte => rem ^^^ reverseWord (p.2 ++ p.1) :=
    (xor_left_bijective rem).comp ((reverseWord_bijective 16).comp append_bytes_bijective)
  have hparts : (fun p : Byte × Byte => crcUpdate crc16b rem [p.1, p.2]) =
      (fun r => crcUpdate crc16b r [0#8, 0#8]) ∘ fun p => rem ^^^ reverseWord (p.2 ++ p.1) := by
    funext p
    rw [crcUpdate_two_bytes, Function.comp_apply]
  rw [hparts]
  exact crcUpdate_zeros_bijective.comp hword

/-- A two-byte message, one byte step at a time. -/
theorem crcUpdate_pair_of_steps {rem mid last : BitVec 16} {d e : Byte} (hfirst : crcByte crc16b rem d = mid)
    (hsecond : crcByte crc16b mid e = last) : crcUpdate crc16b rem [d, e] = last :=
  (congrArg (crcByte crc16b · e) hfirst).trans hsecond

theorem crcUpdate_FF_FF : crcUpdate crc16b 0xFFFF#16 [0xFF, 0xFF] = 0x0000#16 :=
  crcUpdate_pair_of_steps (mid := 0xFF00) (by decide) (by decide)

theorem crcUpdate_DE_0C : crcUpdate crc16b 0xFFFF#16 [0xDE, 0x0C] = 0xFFFF#16 :=
  crcUpdate_pair_of_steps (mid := 0x2E0C) (by decide) (by decide)

theorem crc16bOf_FF_FF : crc16bOf [0xFF, 0xFF] = 0xFFFF#16 :=
  (congrArg (crcFinish crc16b) crcUpdate_FF_FF).trans (by decide)

/-- Settles O33: the run keeps `HoldsMessage`, and `CRC.READ` and `CRC.SUM` then answer from the message's CRC. -/
theorem messageCommandsComputeTheDocumentsCrc : Obligations.MessageCommandsComputeTheDocumentsCrc := by
  refine ⟨fun s first events hfirst h => ?_, rfl, by decide, (crcUpdate_pair_bijective 0xFFFF).existsUnique,
    crcUpdate_FF_FF, crc16bOf_FF_FF, crcUpdate_DE_0C⟩
  obtain ⟨t, hrun, hinputs, hrem⟩ := runSteps_from_start hfirst h
  have hcrc : remCrc t = crc16bOf (absorbed [] events) := remCrc_of_message hrem
  rw [← hcrc]
  refine ⟨t, hrun, hinputs, hrem, rfl, sumLane (remCrc t), ?_, rfl⟩
  rw [soundbankChecksum, ← hcrc]
  exact leBytes_eq_slices_sumLane (remCrc t)

end Sys2Proof.Machine
end

section
/-! SUPPORT and PROOF. Decoding a packed word (42_mwf.md R68 to R72): the layout is all that can fail, and under a layout the result
is a record that is read off the fields. -/

namespace Sys2Proof.Machine

/-! ### The layout -/

/-- `layoutOf` on the signed number itself. -/
theorem layoutOf_eq_ite (version : BitVec 32) :
    layoutOf version =
      if version.toInt = 1 then .ok .v1 else if 2 ≤ version.toInt then .ok .v2 else .error .fveVersion := rfl

theorem layoutOf_of_eq_one {version : BitVec 32} (h : version.toInt = 1) : layoutOf version = .ok .v1 := by
  rw [layoutOf_eq_ite, if_pos h]

theorem layoutOf_of_two_le {version : BitVec 32} (h : 2 ≤ version.toInt) : layoutOf version = .ok .v2 := by
  rw [layoutOf_eq_ite, if_neg (by omega), if_pos h]

theorem layoutOf_of_nonpos {version : BitVec 32} (h : version.toInt ≤ 0) : layoutOf version = .error .fveVersion := by
  rw [layoutOf_eq_ite, if_neg (by omega), if_neg (by omega)]

/-- The three ranges of the signed version, each with what `layoutOf` answers in it. -/
theorem layoutOf_cases (version : BitVec 32) :
    (version.toInt ≤ 0 ∧ layoutOf version = .error .fveVersion) ∨ (version.toInt = 1 ∧ layoutOf version = .ok .v1) ∨
      (2 ≤ version.toInt ∧ layoutOf version = .ok .v2) := by
  rcases (by omega : version.toInt ≤ 0 ∨ version.toInt = 1 ∨ 2 ≤ version.toInt) with h | h | h
  · exact .inl ⟨h, layoutOf_of_nonpos h⟩
  · exact .inr (.inl ⟨h, layoutOf_of_eq_one h⟩)
  · exact .inr (.inr ⟨h, layoutOf_of_two_le h⟩)

/-! ### The checks that never fail -/

theorem checkCodec_eq_ok (codec : BitVec 2) : checkCodec codec = .ok codec := by
  have hlt : codec.toNat < 4 := codec.isLt
  simp only [checkCodec, Config.codecTag?, dif_pos hlt]

/-- The bits per sample a stored bit stands for (42_mwf.md R71). -/
def sampleBitsOf (b : BitVec 1) : SampleBits := if b = 0#1 then .eight else .sixteen

/-- What `interpretBps` answers, which is never a fault. -/
def bpsUnder : Layout → BitVec 1 → Option SampleBits
  | .v1, _ => none
  | .v2, b => some (sampleBitsOf b)

theorem interpretBps_eq_ok (L : Layout) (b : BitVec 1) : interpretBps L b = .ok (bpsUnder L b) := by
  cases L with
  | v1 => rfl
  | v2 =>
    revert b
    decide

/-! ### The decoded record -/

/-- The record and the raw bit that a decode under a layout yields (42_mwf.md R72). -/
def decodedUnder (L : Layout) (word : MwfWord) : WaveFormat × BitVec 1 :=
  let f := fieldsOf L word
  (⟨f.codec, f.channels, f.rate, f.alignment, bpsUnder L f.bpsRaw⟩, f.bpsRaw)

/-- Only the layout can fail. -/
theorem mwfDecode_eq_map (version : BitVec 32) (word : MwfWord) :
    mwfDecode version word = (layoutOf version).map fun L => decodedUnder L word := by
  cases hL : layoutOf version with
  | error code => simp only [mwfDecode, hL, Except.map]
  | ok L => simp only [mwfDecode, hL, checkCodec_eq_ok, interpretBps_eq_ok, Except.map, decodedUnder]

theorem mwfDecode_of_layout {version : BitVec 32} {L : Layout} (h : layoutOf version = .ok L) (word : MwfWord) :
    mwfDecode version word = .ok (decodedUnder L word) := by
  rw [mwfDecode_eq_map, h]
  rfl

/-- A fault of a decode is the one of its layout. -/
theorem fveVersion_of_mwfDecode_error {version : BitVec 32} {word : MwfWord} {code : FaultCode}
    (h : mwfDecode version word = .error code) : code = .fveVersion ∧ version.toInt ≤ 0 := by
  rcases layoutOf_cases version with ⟨hrange, hL⟩ | ⟨-, hL⟩ | ⟨-, hL⟩
  · rw [mwfDecode_eq_map, hL] at h
    exact ⟨(Except.error.inj h).symm, hrange⟩
  · rw [mwfDecode_of_layout hL] at h
    cases h
  · rw [mwfDecode_of_layout hL] at h
    cases h

theorem mwfDecode_ne_error {code : FaultCode} (hcode : code ≠ .fveVersion) (version : BitVec 32) (word : MwfWord) :
    mwfDecode version word ≠ .error code :=
  fun h => hcode (fveVersion_of_mwfDecode_error h).1

theorem one_le_of_mwfDecode_ok {version : BitVec 32} {word : MwfWord} {r : WaveFormat × BitVec 1}
    (h : mwfDecode version word = .ok r) : 1 ≤ version.toInt := by
  by_contra hrange
  rw [mwfDecode_eq_map, layoutOf_of_nonpos (by omega)] at h
  cases h

theorem decResult_of_mwfDecode {version : BitVec 32} {word : MwfWord} {wf : WaveFormat} {b : BitVec 1}
    (h : mwfDecode version word = .ok (wf, b)) : decResult version word = .ok (unpackedBits (unpackedOf wf b)) := by
  simp only [decResult, h]

theorem decResult_of_mwfDecode_error {version : BitVec 32} {word : MwfWord} {code : FaultCode}
    (h : mwfDecode version word = .error code) : decResult version word = .error code := by
  simp only [decResult, h]

theorem decResult_of_layout {version : BitVec 32} {L : Layout} (h : layoutOf version = .ok L) (word : MwfWord) :
    decResult version word = .ok (unpackedBits (unpackedOf (decodedUnder L word).1 (decodedUnder L word).2)) :=
  decResult_of_mwfDecode (mwfDecode_of_layout h word)

/-- Settles O36: the three ranges exclude each other, and a decode depends on the version through its layout alone. -/
theorem layoutFollowsTheSignedVersion : Obligations.LayoutFollowsTheSignedVersion := by
  refine ⟨fun version => ?_, fun version version' word h h' => ?_⟩
  · rcases layoutOf_cases version with ⟨hrange, hL⟩ | ⟨hrange, hL⟩ | ⟨hrange, hL⟩
    all_goals
      simp only [hL, reduceCtorEq, Except.ok.injEq, false_iff, true_iff]
      omega
  · rw [mwfDecode_eq_map, mwfDecode_eq_map, layoutOf_of_two_le h, layoutOf_of_two_le h']

/-! ### The fields -/

/-- A slice is a right shift and a mask. -/
theorem slice_toNat {n : Nat} (x : BitVec n) (start len : Nat) :
    (x.extractLsb' start len).toNat = x.toNat >>> start &&& (2 ^ len - 1) := by
  rw [BitVec.extractLsb'_toNat, Nat.and_two_pow_sub_one_eq_mod]

theorem slice_xor_top (word : MwfWord) (start len : Nat) (h : start + len ≤ 31) :
    (word ^^^ 0x80000000#32).extractLsb' start len = word.extractLsb' start len := by
  apply BitVec.eq_of_getLsbD_eq
  intro i hi
  have htop : (0x80000000#32).getLsbD (start + i) = false := by
    rw [show 0x80000000#32 = BitVec.twoPow 32 31 by decide, BitVec.getLsbD_twoPow]
    simp
    omega
  simp only [BitVec.getLsbD_extractLsb', BitVec.getLsbD_xor, htop, Bool.xor_false]

theorem fieldsOf_v1_xor_top (word : MwfWord) : fieldsOf .v1 (word ^^^ 0x80000000#32) = fieldsOf .v1 word := by
  simp (disch := decide) only [fieldsOf, slice_xor_top]

/-- Settles O37: every field is a slice, and none of V1's reaches bit 31. -/
theorem fieldsAreShiftedAndMasked : Obligations.FieldsAreShiftedAndMasked := fun word =>
  have hcodec : ((word.extractLsb' 0 1).setWidth 2).toNat = word.toNat >>> 0 &&& 0x1 :=
    (BitVec.toNat_setWidth_of_le (by decide)).trans (slice_toNat word 0 1)
  ⟨⟨hcodec, slice_toNat word 1 3, slice_toNat word 4 18, slice_toNat word 22 8, slice_toNat word 30 1⟩,
   ⟨slice_toNat word 0 2, slice_toNat word 2 3, slice_toNat word 5 18, slice_toNat word 23 8, slice_toNat word 31 1⟩,
   fieldsOf_v1_xor_top word⟩

/-! ### Codec and bits per sample -/

theorem codecName_bijective : Function.Bijective Config.codecName := by
  have hindex : Function.Bijective CodecTag.ofIndex := by
    refine ⟨by decide, fun tag => ?_⟩
    cases tag with
    | pcm => exact ⟨0, rfl⟩
    | xma => exact ⟨1, rfl⟩
    | adpcm => exact ⟨2, rfl⟩
    | wma => exact ⟨3, rfl⟩
  exact hindex.comp Config.codecOrder.bijective

/-- Settles O38: a decode faults with `FVE_VERSION` alone. -/
theorem codecCheckNeverFails : Obligations.CodecCheckNeverFails :=
  ⟨checkCodec_eq_ok, mwfDecode_ne_error (by decide), codecName_bijective⟩

/-- Settles O39: the interpreted bits are `bpsUnder`, and the raw bit of V1 stands in its own slot of the lane. -/
theorem bitsPerSampleAreInterpretedUnderV2Only : Obligations.BitsPerSampleAreInterpretedUnderV2Only := by
  refine ⟨fun b => ⟨interpretBps_eq_ok .v2 b, interpretBps_eq_ok .v1 b⟩, ⟨rfl, rfl, rfl, rfl⟩,
    mwfDecode_ne_error (by decide), fun word U hU => ?_⟩
  have hone : decResult 1 word = _ := decResult_of_layout (layoutOf_of_eq_one (by decide)) word
  rw [← Except.ok.inj (hone.symm.trans hU)]
  exact unpackedBits_bpsRaw _

end Sys2Proof.Machine
end

section
/-! SUPPORT and PROOF. `MWF.DEC`, as a command and from its word (42_mwf.md R73, R81). -/

namespace Sys2Proof

/-- Every word with the opcode of `MWF.DEC` is legal: the command has no must-be-zero bits. -/
theorem decode_mwfDec {cmd : CmdWord} (hop : opOf cmd = 0x10#8) :
    decode cmd = .ok (.mwfDec (cmd.extractLsb' 32 32) (cmd.extractLsb' 0 32)) := by
  have hassigned : opcodeOf (opOf cmd) = some .mwfDec := (opcodeOf_eq_some_iff _ _).mpr hop
  have hmbz : argOf cmd &&& mbzMask .mwfDec = 0 := BitVec.and_zero
  have hoperands : operandsOf .mwfDec (argOf cmd) = .mwfDec (cmd.extractLsb' 32 32) (cmd.extractLsb' 0 32) := by
    rw [operandsOf, slice_argOf cmd 32 32 (by decide), slice_argOf cmd 0 32 (by decide)]
  rw [decode_of_opcode hassigned, if_neg (not_not.mpr hmbz), hoperands]
  rfl

namespace Machine

/-- The response word of an answer: `OK` with the lane, or the fault code with no data (30_encoding.md R32, 60_exceptions.md R83). -/
def responseOf : Except FaultCode Lane → RspWord
  | .ok data => rspWord .ok data
  | .error code => rspWord (.fault code) 0

theorem answer_eq_next (result : Except FaultCode Lane) (s : State) :
    answer result s = .next (emit (responseOf result) s) := by
  cases result <;> rfl

theorem exec_mwfDec (version : BitVec 32) (word : MwfWord) (s : State) :
    exec (.mwfDec version word) s = .next (emit (responseOf (decResult version word)) s) :=
  answer_eq_next _ s

theorem step_of_mwfDec {s : State} {cmd : CmdWord} {rest : List PortEvent} (h : s.inputs = .command cmd :: rest)
    (hop : opOf cmd = 0x10#8) :
    step s = .next (emit (responseOf (decResult (cmd.extractLsb' 32 32) (cmd.extractLsb' 0 32)))
      { s with inputs := rest }) :=
  (step_of_decode_ok h (decode_mwfDec hop)).trans (exec_mwfDec _ _ _)

/-- Settles O40: the two columns of the table are the unpacked records of the two layouts. -/
theorem mwfDecIsTheMultiplexer : Obligations.MwfDecIsTheMultiplexer := by
  intro version word s hversion
  rw [exec_mwfDec]
  by_cases hone : version.toInt = 1
  · have hcodec : ((word.extractLsb' 0 1).setWidth 2).setWidth 8 = (word.extractLsb' 0 1).setWidth 8 :=
      BitVec.setWidth_setWidth (by decide)
    rw [decResult_of_layout (layoutOf_of_eq_one hone), if_pos hone, ← hcodec]
    rfl
  · have hbps : bpsSlot (some (sampleBitsOf (word.extractLsb' 31 1))) = if word.extractLsb' 31 1 = 0#1 then 8 else 16 := by
      rw [sampleBitsOf]
      split <;> rfl
    rw [decResult_of_layout (layoutOf_of_two_le (by omega)), if_neg hone, ← hbps]
    rfl

/-! ### The slots as numbers -/

theorem bpsSlot_toNat (bps : Option SampleBits) :
    (bpsSlot bps).toNat = match bps with | none => 0 | some .eight => 8 | some .sixteen => 16 := by
  rcases bps with _ | _ | _ <;> rfl

theorem bpsPresent_eq_one_iff (bps : Option SampleBits) : bpsPresent bps = 1#1 ↔ bps.isSome = true := by
  cases bps with
  | none => decide
  | some bps => exact iff_of_true rfl rfl

/-- Settles O42: an accepted decode is answered with its unpacked record, and each slot is read back from the lane. -/
theorem mwfDecCommandWordFollowsItsRule : Obligations.MwfDecCommandWordFollowsItsRule := by
  intro s cmd rest h hop
  have hstep := step_of_mwfDec h hop
  cases hd : mwfDecode (cmd.extractLsb' 32 32) (cmd.extractLsb' 0 32) with
  | error code =>
    obtain ⟨rfl, hrange⟩ := fveVersion_of_mwfDecode_error hd
    refine ⟨rfl, hrange, ?_⟩
    rw [decResult_of_mwfDecode_error hd] at hstep
    exact hstep
  | ok result =>
    obtain ⟨wf, b⟩ := result
    rw [decResult_of_mwfDecode hd] at hstep
    refine ⟨one_le_of_mwfDecode_ok hd, _, hstep, ?_, ?_, ?_, ?_, ?_, unpackedBits_bpsRaw _, ?_, unpackedBits_top _⟩
    · rw [unpackedBits_codec8]
      exact BitVec.toNat_setWidth_of_le (by decide)
    · rw [unpackedBits_channels8]
      exact BitVec.toNat_setWidth_of_le (by decide)
    · rw [unpackedBits_rate24]
      exact BitVec.toNat_setWidth_of_le (by decide)
    · rw [unpackedBits_align8]
      rfl
    · rw [unpackedBits_bps8]
      exact bpsSlot_toNat _
    · rw [unpackedBits_bpsValid]
      exact bpsPresent_eq_one_iff _

end Machine
end Sys2Proof
end

section
/-! SUPPORT and PROOF. Encoding a record (42_mwf.md R74 to R76): the fields tile the word, so it is their OR, their sum and their XOR,
and it determines them. -/

namespace Sys2Proof.Machine

/-! ### The packed word -/

/-- The V2 word of five fields. -/
def packWord (f : MwfFields) : MwfWord := f.bpsRaw ++ f.alignment ++ f.rate ++ f.channels ++ f.codec

/-- The raw fields that stand in the encoding of a record with bits per sample (42_mwf.md R75). -/
def fieldsOfRecord (wf : WaveFormat) (bps : SampleBits) : MwfFields :=
  ⟨wf.codec, wf.channels, wf.sampleRate, wf.blockAlignment, rawBit bps⟩

theorem mwfEncode_of_some {wf : WaveFormat} {bps : SampleBits} (h : wf.bitsPerSample = some bps) :
    mwfEncode wf = .ok (packWord (fieldsOfRecord wf bps)) := by
  simp only [mwfEncode, h, packed_eq_append, packWord, fieldsOfRecord]

theorem mwfEncode_of_none {wf : WaveFormat} (h : wf.bitsPerSample = none) : mwfEncode wf = .error .fveRange := by
  simp only [mwfEncode, h]

theorem fieldsOf_v2_packWord (f : MwfFields) : fieldsOf .v2 (packWord f) = f := by
  obtain ⟨c, ch, r, a, b⟩ := f
  rw [fieldsOf, MwfFields.mk.injEq]
  refine ⟨(slice_append_low (by decide)).trans slice_all, ?_, ?_, ?_, ?_⟩
  · refine (slice_append_high (by decide)).trans ?_
    exact (slice_append_low (by decide)).trans slice_all
  · repeat refine (slice_append_high (by decide)).trans ?_
    exact (slice_append_low (by decide)).trans slice_all
  · repeat refine (slice_append_high (by decide)).trans ?_
    exact (slice_append_low (by decide)).trans slice_all
  · repeat refine (slice_append_high (by decide)).trans ?_
    exact slice_all

theorem packWord_fieldsOf_v2 (word : MwfWord) : packWord (fieldsOf .v2 word) = word := by
  have h23 : word.extractLsb' 31 1 ++ word.extractLsb' 23 8 = word.extractLsb' 23 9 := slice_glue word 23 8 1 31 rfl
  have h5 : word.extractLsb' 23 9 ++ word.extractLsb' 5 18 = word.extractLsb' 5 27 := slice_glue word 5 18 9 23 rfl
  have h2 : word.extractLsb' 5 27 ++ word.extractLsb' 2 3 = word.extractLsb' 2 30 := slice_glue word 2 3 27 5 rfl
  have h0 : word.extractLsb' 2 30 ++ word.extractLsb' 0 2 = word.extractLsb' 0 32 := slice_glue word 0 2 30 2 rfl
  calc packWord (fieldsOf .v2 word)
    _ = word.extractLsb' 31 1 ++ word.extractLsb' 23 8 ++ word.extractLsb' 5 18 ++ word.extractLsb' 2 3
          ++ word.extractLsb' 0 2 := rfl
    _ = word := by rw [h23, h5, h2, h0, slice_all]

/-! ### OR, sum and XOR -/

/-- A field of `m` bits shifted to place `k` of a word that has room for it. -/
theorem toNat_shifted_field {m k N : Nat} (y : BitVec m) (hfit : m + k ≤ N) :
    (y.setWidth N <<< k).toNat = y.toNat <<< k := by
  have hlt : y.toNat <<< k < 2 ^ N :=
    (Nat.shiftLeft_lt y.isLt).trans_le (Nat.pow_le_pow_right (by decide) hfit)
  rw [BitVec.toNat_shiftLeft, BitVec.toNat_setWidth_of_le (by omega), Nat.mod_eq_of_lt hlt]

theorem or_shiftLeft_eq_xor {k x : Nat} (hx : x < 2 ^ k) (y : Nat) : x ||| y <<< k = x ^^^ y <<< k := by
  apply Nat.eq_of_testBit_eq
  intro i
  rw [Nat.testBit_or, Nat.testBit_xor, Nat.testBit_shiftLeft]
  by_cases hi : k ≤ i
  · have hxi : x.testBit i = false := Nat.testBit_lt_two_pow (hx.trans_le (Nat.pow_le_pow_right (by decide) hi))
    simp [hxi]
  · simp [hi]

/-- A field put above a word that ends below it: the OR is the XOR and the sum, and ends where the field does. -/
theorem or_shifted_field {k m : Nat} {x : MwfWord} (hx : x.toNat < 2 ^ k) (y : BitVec m) (hfit : m + k ≤ 32) :
    (x ||| y.setWidth 32 <<< k) = x ^^^ y.setWidth 32 <<< k ∧
    (x ||| y.setWidth 32 <<< k).toNat = x.toNat + y.toNat * 2 ^ k ∧
    (x ||| y.setWidth 32 <<< k).toNat < 2 ^ (m + k) := by
  have hy := toNat_shifted_field y hfit
  have hshift : y.toNat <<< k < 2 ^ (m + k) := Nat.shiftLeft_lt y.isLt
  refine ⟨BitVec.eq_of_toNat_eq ?_, ?_, ?_⟩
  · rw [BitVec.toNat_or, BitVec.toNat_xor, hy]
    exact or_shiftLeft_eq_xor hx _
  · rw [BitVec.toNat_or, hy, Nat.or_comm, ← Nat.shiftLeft_add_eq_or_of_lt hx, Nat.shiftLeft_eq, Nat.add_comm]
  · rw [BitVec.toNat_or, hy]
    exact Nat.or_lt_two_pow (hx.trans_le (Nat.pow_le_pow_right (by decide) (Nat.le_add_left k m))) hshift

theorem packWord_eq_or (f : MwfFields) :
    packWord f =
      (f.codec.setWidth 32 ||| f.channels.setWidth 32 <<< 2 ||| f.rate.setWidth 32 <<< 5 ||| f.alignment.setWidth 32 <<< 23
        ||| f.bpsRaw.setWidth 32 <<< 31) :=
  (packed_eq_append _ _ _ _ _).symm

theorem packWord_toNat_eq_or (f : MwfFields) :
    (packWord f).toNat =
      (f.codec.toNat <<< 0 ||| f.channels.toNat <<< 2 ||| f.rate.toNat <<< 5 ||| f.alignment.toNat <<< 23
        ||| f.bpsRaw.toNat <<< 31) := by
  have hcodec : (f.codec.setWidth 32).toNat = f.codec.toNat <<< 0 := BitVec.toNat_setWidth_of_le (by decide)
  simp (disch := decide) only [packWord_eq_or, BitVec.toNat_or, hcodec, toNat_shifted_field]

/-- Field after field, from the low end: no two overlap. -/
theorem packWord_eq_sum_and_xor (f : MwfFields) :
    (packWord f).toNat =
      f.codec.toNat + f.channels.toNat * 2 ^ 2 + f.rate.toNat * 2 ^ 5 + f.alignment.toNat * 2 ^ 23
        + f.bpsRaw.toNat * 2 ^ 31 ∧
    packWord f =
      (f.codec.setWidth 32 ^^^ f.channels.setWidth 32 <<< 2 ^^^ f.rate.setWidth 32 <<< 5
        ^^^ f.alignment.setWidth 32 <<< 23 ^^^ f.bpsRaw.setWidth 32 <<< 31) := by
  have hcodec : (f.codec.setWidth 32).toNat = f.codec.toNat := BitVec.toNat_setWidth_of_le (by decide)
  have hlt : (f.codec.setWidth 32).toNat < 2 ^ 2 := hcodec ▸ f.codec.isLt
  obtain ⟨hxor2, hsum2, hlt2⟩ := or_shifted_field hlt f.channels (by decide)
  obtain ⟨hxor5, hsum5, hlt5⟩ := or_shifted_field (k := 5) hlt2 f.rate (by decide)
  obtain ⟨hxor23, hsum23, hlt23⟩ := or_shifted_field (k := 23) hlt5 f.alignment (by decide)
  obtain ⟨hxor31, hsum31, -⟩ := or_shifted_field (k := 31) hlt23 f.bpsRaw (by decide)
  constructor
  · rw [packWord_eq_or, hsum31, hsum23, hsum5, hsum2, hcodec]
  · rw [packWord_eq_or, hxor31, hxor23, hxor5, hxor2]

/-- Settles O43: the three forms of the packed word. -/
theorem encodeOfRecordTilesTheWord : Obligations.EncodeOfRecordTilesTheWord := by
  refine ⟨fun wf bps hbps => ⟨packWord (fieldsOfRecord wf bps), mwfEncode_of_some hbps, ?_⟩, rfl, rfl⟩
  have hor := packWord_toNat_eq_or (fieldsOfRecord wf bps)
  obtain ⟨hsum, hxor⟩ := packWord_eq_sum_and_xor (fieldsOfRecord wf bps)
  cases bps with
  | eight => exact ⟨hor, hsum, hxor⟩
  | sixteen => exact ⟨hor, hsum, hxor⟩

end Sys2Proof.Machine
end

section
/-! SUPPORT and PROOF. `MWF.ENC`, as a result of its slots and from its word (42_mwf.md R76, R77). -/

namespace Sys2Proof

theorem mbz_mwfEnc_iff (cmd : CmdWord) : argOf cmd &&& mbzMask .mwfEnc = 0 ↔ cmd.extractLsb' 58 6 = 0#6 := by
  rw [and_mask_eq_zero_iff _ (mbzMask .mwfEnc) 58 6 (by decide), slice_argOf cmd 58 6 (by decide)]

/-- The decoder on a word with the opcode of `MWF.ENC`: the six top bits of `U` must be zero. -/
theorem decode_mwfEnc {cmd : CmdWord} (hop : opOf cmd = 0x11#8) :
    decode cmd =
      if cmd.extractLsb' 58 6 ≠ 0#6 then .error .mustBeZeroBit
      else .ok (.mwfEnc (cmd.extractLsb' 0 8) (cmd.extractLsb' 8 8) (cmd.extractLsb' 16 24) (cmd.extractLsb' 40 8)
        (cmd.extractLsb' 48 8) (cmd.extractLsb' 56 2)) := by
  have hassigned : opcodeOf (opOf cmd) = some .mwfEnc := (opcodeOf_eq_some_iff _ _).mpr hop
  simp (disch := decide) only [decode_of_opcode hassigned, ne_eq, mbz_mwfEnc_iff, operandsOf, slice_argOf,
    Instr.wellFormed, if_true]

namespace Machine

/-! ### The range check -/

/-- Each slot fits its packed width (42_mwf.md R76). -/
abbrev SlotsInRange (codec8 channels8 : BitVec 8) (rate24 : BitVec 24) (bps8 : BitVec 8) : Prop :=
  codec8.toNat ≤ 3 ∧ channels8.toNat ≤ 7 ∧ rate24.toNat ≤ 262143 ∧ (bps8 = 8#8 ∨ bps8 = 16#8)

theorem rangeOk_iff (codec8 channels8 : BitVec 8) (rate24 : BitVec 24) (bps8 : BitVec 8) :
    rangeOk codec8 channels8 rate24 bps8 = true ↔ SlotsInRange codec8 channels8 rate24 bps8 := by
  have height : bps8.toNat = 8 ↔ bps8 = 8#8 := BitVec.toNat_inj (y := 8#8)
  have hsixteen : bps8.toNat = 16 ↔ bps8 = 16#8 := BitVec.toNat_inj (y := 16#8)
  simp only [rangeOk, SlotsInRange, Bool.and_eq_true, Bool.or_eq_true, decide_eq_true_eq, height, hsixteen, and_assoc]

theorem encResult_of_not_inRange {codec8 channels8 : BitVec 8} {rate24 : BitVec 24} {bps8 : BitVec 8} (align8 : BitVec 8)
    (h : ¬SlotsInRange codec8 channels8 rate24 bps8) :
    encResult codec8 channels8 rate24 align8 bps8 = .error .fveRange := by
  rw [← rangeOk_iff] at h
  simp only [encResult, waveFormatOf, if_neg h]

/-! ### The packed lane -/

/-- The OR of the shifted slots, in the 64 bits of the response lane. -/
def packedLane (codec8 channels8 : BitVec 8) (rate24 : BitVec 24) (align8 bps8 : BitVec 8) : Lane :=
  codec8.setWidth 64 ||| channels8.setWidth 64 <<< 2 ||| rate24.setWidth 64 <<< 5 ||| align8.setWidth 64 <<< 23
    ||| (if bps8 = 8#8 then 0#64 else 1#64) <<< 31

/-- A slot that fits in `m` bits loses nothing on its way through the packed word. -/
theorem narrowed_field {w m k : Nat} {x : BitVec w} (hx : x.toNat < 2 ^ m) (hfit : m + k ≤ 32) (hwide : w + k ≤ 64) :
    ((x.setWidth m).setWidth 32 <<< k).setWidth 64 = x.setWidth 64 <<< k := by
  have hnarrow : (x.setWidth m).toNat = x.toNat := by rw [BitVec.toNat_setWidth, Nat.mod_eq_of_lt hx]
  apply BitVec.eq_of_toNat_eq
  rw [BitVec.toNat_setWidth_of_le (by decide), toNat_shifted_field _ hfit, toNat_shifted_field _ hwide, hnarrow]

theorem encResult_of_inRange {codec8 channels8 : BitVec 8} {rate24 : BitVec 24} {bps8 : BitVec 8} (align8 : BitVec 8)
    (h : SlotsInRange codec8 channels8 rate24 bps8) :
    encResult codec8 channels8 rate24 align8 bps8 = .ok (packedLane codec8 channels8 rate24 align8 bps8) := by
  have hrange := (rangeOk_iff _ _ _ _).mpr h
  obtain ⟨hcodec, hchannels, hrate, hbps⟩ := h
  have hcodec' : ((codec8.setWidth 2).setWidth 32).setWidth 64 = codec8.setWidth 64 := by
    simpa only [BitVec.shiftLeft_zero] using
      narrowed_field (m := 2) (k := 0) (Nat.lt_succ_of_le hcodec) (by decide) (by decide)
  have hchannels' := narrowed_field (m := 3) (k := 2) (Nat.lt_succ_of_le hchannels) (by decide) (by decide)
  have hrate' := narrowed_field (m := 18) (k := 5) (Nat.lt_succ_of_le hrate) (by decide) (by decide)
  have halign' : (align8.setWidth 32 <<< 23).setWidth 64 = align8.setWidth 64 <<< 23 := by
    simpa only [BitVec.setWidth_eq] using narrowed_field (m := 8) (k := 23) align8.isLt (by decide) (by decide)
  have hbps' : ((rawBit (if bps8.toNat = 8 then .eight else .sixteen)).setWidth 32 <<< 31).setWidth 64
      = (if bps8 = 8#8 then 0#64 else 1#64) <<< 31 := by
    rcases hbps with rfl | rfl <;> rfl
  simp only [encResult, waveFormatOf, if_pos hrange, mwfEncode, packedLane, BitVec.setWidth_or, hcodec', hchannels', hrate',
    halign', hbps']

theorem exec_mwfEnc (codec8 channels8 : BitVec 8) (rate24 : BitVec 24) (align8 bps8 : BitVec 8) (ignored : BitVec 2)
    (s : State) :
    exec (.mwfEnc codec8 channels8 rate24 align8 bps8 ignored) s =
      .next (emit (responseOf (encResult codec8 channels8 rate24 align8 bps8)) s) :=
  answer_eq_next _ s

/-- Settles O45: the decoder's check comes before the range check. -/
theorem mwfEncCommandWordFollowsItsRule : Obligations.MwfEncCommandWordFollowsItsRule := by
  intro s cmd rest h hop
  rw [step_of_mbz_check_answer h (decode_mwfEnc hop) (exec_mwfEnc _ _ _ _ _ _ _)]
  by_cases hrange : SlotsInRange (cmd.extractLsb' 0 8) (cmd.extractLsb' 8 8) (cmd.extractLsb' 16 24) (cmd.extractLsb' 48 8)
  · rw [encResult_of_inRange _ hrange, if_neg (not_not.mpr hrange)]
    rfl
  · rw [encResult_of_not_inRange _ hrange, if_pos hrange]
    rfl

end Machine
end Sys2Proof
end

section
/-! SUPPORT and PROOF. Round trips (42_mwf.md R78 to R80): the encoder reads a record back from the slots the decoder writes, and a V2
decode of a packed word gives the record it was packed from. -/

namespace Sys2Proof.Machine

/-! ### The functions -/

theorem sampleBitsOf_rawBit (bps : SampleBits) : sampleBitsOf (rawBit bps) = bps := by
  cases bps <;> rfl

theorem rawBit_sampleBitsOf (b : BitVec 1) : rawBit (sampleBitsOf b) = b := by
  revert b
  decide

theorem mwfEncode_decodedUnder_v2 (word : MwfWord) : mwfEncode (decodedUnder .v2 word).1 = .ok word := by
  have hbps : (decodedUnder .v2 word).1.bitsPerSample = some (sampleBitsOf (fieldsOf .v2 word).bpsRaw) := rfl
  have hfields : fieldsOfRecord (decodedUnder .v2 word).1 (sampleBitsOf (fieldsOf .v2 word).bpsRaw) = fieldsOf .v2 word := by
    rw [fieldsOfRecord, rawBit_sampleBitsOf]
    rfl
  rw [mwfEncode_of_some hbps, hfields, packWord_fieldsOf_v2]

theorem decodedUnder_v2_packWord {wf : WaveFormat} {bps : SampleBits} (h : wf.bitsPerSample = some bps) :
    decodedUnder .v2 (packWord (fieldsOfRecord wf bps)) = (wf, rawBit bps) := by
  rw [decodedUnder, fieldsOf_v2_packWord, fieldsOfRecord, bpsUnder, sampleBitsOf_rawBit, ← h]

theorem roundTrip_of_two_le {version : BitVec 32} (h : 2 ≤ version.toInt) (word : MwfWord) :
    roundTrip version word = .ok word := by
  rw [roundTrip, mwfDecode_of_layout (layoutOf_of_two_le h)]
  exact mwfEncode_decodedUnder_v2 word

theorem roundTrips_of_fixed {version : BitVec 32} {word : MwfWord} (h : roundTrip version word = .ok word) (k : Nat) :
    roundTrips version k word = .ok word := by
  induction k with
  | zero => rfl
  | succ k ih => simp only [roundTrips, h, ih]

/-- Settles O47: one trip fixes the word. -/
theorem repeatedRoundTripsAreAFixedPoint : Obligations.RepeatedRoundTripsAreAFixedPoint :=
  ⟨fun _ word k h => roundTrips_of_fixed (roundTrip_of_two_le h word) k,
   fun k _ => roundTrips_of_fixed (roundTrip_of_two_le (by decide) _) k⟩

/-! ### The slots between the two commands -/

theorem toNat_setWidth_lt {m n : Nat} (x : BitVec m) (h : m ≤ n) : (x.setWidth n).toNat < 2 ^ m := by
  rw [BitVec.toNat_setWidth_of_le h]
  exact x.isLt

/-- A record with bits per sample is read back from its slots. -/
theorem waveFormatOf_unpackedOf {wf : WaveFormat} {bps : SampleBits} (h : wf.bitsPerSample = some bps) (b : BitVec 1) :
    waveFormatOf (unpackedOf wf b).codec8 (unpackedOf wf b).channels8 (unpackedOf wf b).rate24 (unpackedOf wf b).align8
      (unpackedOf wf b).bps8 = .ok wf := by
  obtain ⟨codec, channels, rate, alignment, _⟩ := wf
  subst h
  have hbps : bpsSlot (some bps) = 8#8 ∨ bpsSlot (some bps) = 16#8 := by
    cases bps with
    | eight => exact .inl rfl
    | sixteen => exact .inr rfl
  have hrange : rangeOk (codec.setWidth 8) (channels.setWidth 8) (rate.setWidth 24) (bpsSlot (some bps)) = true :=
    (rangeOk_iff _ _ _ _).mpr ⟨Nat.le_of_lt_succ (toNat_setWidth_lt codec (by decide)),
      Nat.le_of_lt_succ (toNat_setWidth_lt channels (by decide)), Nat.le_of_lt_succ (toNat_setWidth_lt rate (by decide)), hbps⟩
  simp (disch := decide) only [waveFormatOf, unpackedOf, if_pos hrange, BitVec.setWidth_setWidth_of_le,
    BitVec.setWidth_eq]
  cases bps <;> rfl

/-- `MWF.ENC` of an unpacked record is the encoder on the record, absent bits per sample included (42_mwf.md R80 (b)). -/
theorem encResult_unpackedOf (wf : WaveFormat) (b : BitVec 1) :
    encResult (unpackedOf wf b).codec8 (unpackedOf wf b).channels8 (unpackedOf wf b).rate24 (unpackedOf wf b).align8
      (unpackedOf wf b).bps8 = (mwfEncode wf).map fun word => word.setWidth 64 := by
  cases h : wf.bitsPerSample with
  | none =>
    have hslot : (unpackedOf wf b).bps8 = 0#8 := congrArg bpsSlot h
    rw [mwfEncode_of_none h, hslot]
    exact encResult_of_not_inRange _ fun ⟨_, _, _, hbps⟩ => absurd hbps (by decide)
  | some bps =>
    simp only [encResult, waveFormatOf_unpackedOf h, mwfEncode_of_some h, Except.map]

/-- A step on `MWF.ENC` with an unpacked record as its operand. -/
theorem step_of_mwfEnc_unpackedOf {s : State} {rest : List PortEvent} (wf : WaveFormat) (b : BitVec 1)
    (h : s.inputs = .command (cmdWord 0x11#8 (unpackedBits (unpackedOf wf b))) :: rest) :
    step s = .next (emit (responseOf ((mwfEncode wf).map fun word => word.setWidth 64)) { s with inputs := rest }) := by
  have hslice (start len : Nat) (hfit : start + len ≤ 64) :
      (cmdWord 0x11#8 (unpackedBits (unpackedOf wf b))).extractLsb' start len =
        (unpackedBits (unpackedOf wf b)).extractLsb' start len := slice_append_low hfit
  have hd := decode_mwfEnc (opOf_cmdWord 0x11#8 (unpackedBits (unpackedOf wf b)))
  simp (disch := decide) only [hslice, unpackedBits_top, unpackedBits_codec8, unpackedBits_channels8, unpackedBits_rate24,
    unpackedBits_align8, unpackedBits_bps8, ne_eq, not_true_eq_false, if_false] at hd
  rw [step_of_decode_ok h hd, exec_mwfEnc, encResult_unpackedOf]

/-- A step on `MWF.DEC` with its two operands written into the word. -/
theorem step_of_mwfDec_cmdWord {s : State} {rest : List PortEvent} {version : BitVec 32} {word : MwfWord}
    (h : s.inputs = .command (cmdWord 0x10#8 (version ++ word)) :: rest) :
    step s = .next (emit (responseOf (decResult version word)) { s with inputs := rest }) := by
  have hversion : (cmdWord 0x10#8 (version ++ word)).extractLsb' 32 32 = version := by
    refine (slice_append_low (by decide)).trans ?_
    exact (slice_append_high (by decide)).trans slice_all
  have hword : (cmdWord 0x10#8 (version ++ word)).extractLsb' 0 32 = word := by
    refine (slice_append_low (by decide)).trans ?_
    exact (slice_append_low (by decide)).trans slice_all
  rw [step_of_mwfDec h (opOf_cmdWord _ _), hversion, hword]

/-- Settles O46: `U` is the unpacked record of the V2 decode, from which the encoder packs the word again. -/
theorem decodedWordReencodesToItself : Obligations.DecodedWordReencodesToItself := by
  intro version v hversion
  refine ⟨roundTrip_of_two_le hversion v, fun s rest h => ?_⟩
  have hdec := step_of_mwfDec_cmdWord h
  rw [decResult_of_layout (layoutOf_of_two_le hversion)] at hdec
  refine ⟨_, hdec, fun s' rest' h' => ?_⟩
  have henc := step_of_mwfEnc_unpackedOf _ _ h'
  rw [mwfEncode_decodedUnder_v2] at henc
  exact henc

/-- The two layouts differ in `bps_valid` on every word. -/
theorem unpackedBits_layouts_ne (word : MwfWord) :
    unpackedBits (unpackedOf (decodedUnder .v1 word).1 (decodedUnder .v1 word).2) ≠
      unpackedBits (unpackedOf (decodedUnder .v2 word).1 (decodedUnder .v2 word).2) := by
  intro h
  have hvalid := congrArg (BitVec.extractLsb' 57 1) h
  rw [unpackedBits_bpsValid, unpackedBits_bpsValid] at hvalid
  exact absurd (show (0#1) = 1#1 from hvalid) (by decide)

/-- Settles O48: a record is what its packed word decodes to, a V1 decode has no bits per sample to encode, and the layouts tell
in `bps_valid`. -/
theorem recordsRoundTripAndV1DoesNot : Obligations.RecordsRoundTripAndV1DoesNot := by
  have hone (word : MwfWord) := decResult_of_layout (layoutOf_of_eq_one (version := 1) (by decide)) word
  refine ⟨fun version wf bps hversion hbps => ?_, fun word => ⟨_, hone word, fun s rest h => ?_⟩,
    fun version word hversion => ?_, rfl, rfl, rfl⟩
  · refine ⟨_, mwfEncode_of_some hbps, ?_, congrArg MwfFields.bpsRaw (fieldsOf_v2_packWord (fieldsOfRecord wf bps))⟩
    rw [mwfDecode_of_layout (layoutOf_of_two_le hversion), decodedUnder_v2_packWord hbps]
  · have henc := step_of_mwfEnc_unpackedOf _ _ h
    rw [mwfEncode_of_none rfl] at henc
    exact henc
  · exact ⟨_, _, hone word, decResult_of_layout (layoutOf_of_two_le hversion) word, unpackedBits_layouts_ne word⟩

end Sys2Proof.Machine
end

section
/-! SUPPORT and PROOF. What a command word is answered (60_exceptions.md R82 to R86): one response, which is `OK` or a fault code,
and which words each fault code answers. -/

namespace Sys2Proof.Machine

/-! ### The outcome of a command -/

/-- The fault codes a decoded command can be answered with (60_exceptions.md R84, R86, R89). -/
def MayRaise (i : Instr) (code : FaultCode) : Prop :=
  (i.opcode = .mwfDec ∧ code = .fveVersion) ∨ (i.opcode = .mwfEnc ∧ code = .fveRange)

/-- The fault codes a command word can be answered with: ILLEGAL when the decoder refuses it, else those of its command. -/
def WordMayRaise (cmd : CmdWord) (code : FaultCode) : Prop :=
  ((∃ e, decode cmd = .error e) ∧ code = .illegal) ∨ ∃ i, decode cmd = .ok i ∧ MayRaise i code

/-- The two outcomes of a command accepted into `s` (60_exceptions.md R82, R83): it completes, with `REM` perhaps written, or it
faults, with no data and nothing written. -/
inductive OneResponse (mayRaise : FaultCode → Prop) (s : State) : Host.Outcome State Fault Refusal → Prop where
  | completed (v : BitVec 16) (data : Lane) : OneResponse mayRaise s (.next (emit (rspWord .ok data) (writeRem v s)))
  | faulted {code : FaultCode} (h : mayRaise code) : OneResponse mayRaise s (.next (emit (rspWord (.fault code) 0) s))

theorem OneResponse.mono {P Q : FaultCode → Prop} {s : State} {o : Host.Outcome State Fault Refusal} (h : OneResponse P s o)
    (hPQ : ∀ code, P code → Q code) : OneResponse Q s o := by
  cases h with
  | completed v data => exact .completed v data
  | faulted hcode => exact .faulted (hPQ _ hcode)

/-- The response that was added tells which of the two outcomes it was. -/
theorem OneResponse.added {P : FaultCode → Prop} {s t : State} {rsp : RspWord} (h : OneResponse P s (.next t))
    (hrsp : t.responses = s.responses ++ [rsp]) :
    (∃ data, rsp = rspWord .ok data) ∨ ∃ code, P code ∧ rsp = rspWord (.fault code) 0 ∧ t = emit rsp s := by
  cases h with
  | completed v data => exact .inl ⟨data, (List.append_singleton_inj.mp hrsp).2.symm⟩
  | faulted hcode =>
    obtain rfl := (List.append_singleton_inj.mp hrsp).2
    exact .inr ⟨_, hcode, rfl, rfl⟩

/-- The two ranges of the signed version, each with the result of `MWF.DEC` in it. -/
theorem decResult_cases (version : BitVec 32) (word : MwfWord) :
    (version.toInt ≤ 0 ∧ decResult version word = .error .fveVersion) ∨
      (0 < version.toInt ∧ ∃ U, decResult version word = .ok U) := by
  cases hd : mwfDecode version word with
  | error code =>
    obtain ⟨rfl, hrange⟩ := fveVersion_of_mwfDecode_error hd
    exact .inl ⟨hrange, decResult_of_mwfDecode_error hd⟩
  | ok result => exact .inr ⟨one_le_of_mwfDecode_ok hd, _, decResult_of_mwfDecode hd⟩

theorem exec_oneResponse {i : Instr} (hwf : i.wellFormed = true) (s : State) : OneResponse (MayRaise i) s (exec i s) := by
  cases i with
  | crcInit => exact .completed _ _
  | crcByte d => exact .completed _ _
  | crcRead => exact .completed s.rem _
  | crcSum => exact .completed s.rem _
  | rev n value =>
    rw [exec_rev_of_le (of_decide_eq_true hwf)]
    exact .completed s.rem _
  | mwfDec version word =>
    rw [exec_mwfDec]
    rcases decResult_cases version word with ⟨-, h⟩ | ⟨-, U, h⟩
    · rw [h]
      exact .faulted (.inl ⟨rfl, rfl⟩)
    · rw [h]
      exact .completed s.rem U
  | mwfEnc codec8 channels8 rate24 align8 bps8 ignored =>
    rw [exec_mwfEnc]
    by_cases h : SlotsInRange codec8 channels8 rate24 bps8
    · rw [encResult_of_inRange align8 h]
      exact .completed s.rem _
    · rw [encResult_of_not_inRange align8 h]
      exact .faulted (.inr ⟨rfl, rfl⟩)

/-- A step on a command word accepts it and has one of the two outcomes. -/
theorem step_oneResponse {s : State} {cmd : CmdWord} {rest : List PortEvent} (h : s.inputs = .command cmd :: rest) :
    OneResponse (WordMayRaise cmd) { s with inputs := rest } (step s) := by
  cases hd : decode cmd with
  | ok i =>
    obtain ⟨-, -, -, hwf, -⟩ := reason_of_decode hd
    rw [step_of_decode_ok h hd]
    exact (exec_oneResponse hwf _).mono fun code hcode => .inr ⟨i, hd, hcode⟩
  | error e =>
    rw [step_of_decode_error h hd]
    exact .faulted (.inl ⟨⟨e, hd⟩, rfl⟩)

/-- Settles O49: a command completes or faults, and either adds the one response. -/
theorem everyCommandGetsExactlyOneResponse : Obligations.EveryCommandGetsExactlyOneResponse := by
  intro s cmd rest h
  have houtcome := step_oneResponse h
  generalize step s = o at houtcome ⊢
  cases houtcome with
  | completed v data => exact ⟨_, _, _, rfl, rfl, rfl⟩
  | faulted hcode => exact ⟨_, _, _, rfl, rfl, rfl⟩

/-! ### The rest of the run -/

theorem step_of_idle {s : State} (h : s.inputs = []) : step s = .next s := by
  simp only [step, accept_of_nil h]

/-- A step reads none of the responses emitted before it and adds the same ones to any. -/
theorem step_extends_responses (s : State) :
    ∃ (u : State) (later : List RspWord), ∀ past : List RspWord,
      step { s with responses := past } = .next { u with responses := past ++ later } := by
  cases h : s.inputs with
  | nil => exact ⟨{ s with inputs := [] }, [], fun past => by rw [step_of_idle rfl, List.append_nil]⟩
  | cons e rest =>
    obtain ⟨b', rsp?, hstep⟩ := step_of_block e s.toBlock
    exact ⟨{ toBlock := b', inputs := rest, responses := [] }, rsp?.toList, fun past => hstep _ rest rfl rfl⟩

/-- Nor does a run. -/
theorem runSteps_extends_responses (n : Nat) (s : State) :
    ∃ (u : State) (later : List RspWord), ∀ past : List RspWord,
      runSteps n { s with responses := past } = .next { u with responses := past ++ later } := by
  induction n generalizing s with
  | zero => exact ⟨s, [], fun past => by rw [runSteps_zero, List.append_nil]⟩
  | succ n ih =>
    obtain ⟨mid, first, hstep⟩ := step_extends_responses s
    obtain ⟨u, later, hrun⟩ := ih mid
    exact ⟨u, first ++ later, fun past => by rw [runSteps_succ (hstep past), hrun, List.append_assoc]⟩

theorem dataOf_rspWord (status : Status) (data : Lane) : dataOf (rspWord status data) = data :=
  (slice_rspWord (by decide)).trans slice_all

/-- Settles O50: after a fault only the responses differ from the state without the command, and no later step reads them. -/
theorem faultingCommandLeavesTheRunUnchanged : Obligations.FaultingCommandLeavesTheRunUnchanged := by
  intro s t cmd rest rsp h hstep hrsp hstatus
  have houtcome := step_oneResponse h
  rw [hstep] at houtcome
  rcases houtcome.added hrsp with ⟨data, rfl⟩ | ⟨code, -, hfault, rfl⟩
  · exact absurd (statusOf_rspWord .ok data) hstatus
  · refine ⟨(congrArg dataOf hfault).trans (dataOf_rspWord _ _), rfl, rfl, fun n => ?_⟩
    obtain ⟨u, later, hrun⟩ := runSteps_extends_responses n { s with inputs := rest }
    refine ⟨_, later, hrun s.responses, rfl, ?_⟩
    rw [List.append_cons]
    exact hrun (s.responses ++ [rsp])

/-! ### `FVE_VERSION` -/

/-- Equal response words have equal status numbers. -/
theorem number_eq_of_rspWord_eq {status status' : Status} {data data' : Lane}
    (h : rspWord status data = rspWord status' data') : status.number = status'.number := by
  rw [← statusOf_rspWord status data, h, statusOf_rspWord]

theorem toInt_nonpos_iff (version : BitVec 32) : version.toInt ≤ 0 ↔ version = 0#32 ∨ version.getLsbD 31 = true := by
  have hneg : version.getLsbD 31 = true ↔ version.toInt < 0 := by
    rw [← decide_eq_true_iff (p := version.toInt < 0), ← BitVec.msb_eq_toInt]
    rfl
  have hzero : version = 0#32 ↔ version.toInt = 0 := BitVec.toInt_inj.symm
  rw [hneg, hzero]
  omega

theorem rsp_eq_of_emit_eq {rsp rsp' : RspWord} {s : State}
    (h : (.next (emit rsp s) : Host.Outcome State Fault Refusal) = .next (emit rsp' s)) : rsp = rsp' :=
  (List.append_singleton_inj.mp (congrArg State.responses (Host.Outcome.next.inj h))).2

/-- Settles O41: at positive versions `MWF.DEC` answers `OK`, whose number is another one. -/
theorem mwfDecRefusesVersionsBelowOne : Obligations.MwfDecRefusesVersionsBelowOne := by
  intro version word s
  refine ⟨toInt_nonpos_iff version, ?_⟩
  rw [exec_mwfDec]
  rcases decResult_cases version word with ⟨hrange, hresult⟩ | ⟨hrange, U, hresult⟩
  · rw [hresult]
    exact iff_of_true rfl hrange
  · rw [hresult]
    refine iff_of_false (fun h => ?_) (not_le.mpr hrange)
    exact absurd (number_eq_of_rspWord_eq (rsp_eq_of_emit_eq h)) (by decide)

/-! ### The status table -/

theorem status_of_wordMayRaise {cmd : CmdWord} {code : FaultCode} (h : WordMayRaise cmd code) :
    Status.number (.fault code) = 0x01#8 ∨ (Status.number (.fault code) = 0x10#8 ∧ opOf cmd = 0x10#8) ∨
      (Status.number (.fault code) = 0x13#8 ∧ opOf cmd = 0x11#8) := by
  rcases h with ⟨-, rfl⟩ | ⟨i, hd, ⟨hop, rfl⟩ | ⟨hop, rfl⟩⟩
  · exact .inl rfl
  · exact .inr (.inl ⟨rfl, (opOf_of_decode hd).trans (congrArg Opcode.code hop)⟩)
  · exact .inr (.inr ⟨rfl, (opOf_of_decode hd).trans (congrArg Opcode.code hop)⟩)

/-- In every state the word is answered with the status number. -/
def AlwaysAnswers (cmd : CmdWord) (status : BitVec 8) : Prop :=
  ∀ (s : State) (rest : List PortEvent), s.inputs = .command cmd :: rest →
    ∃ t rsp, step s = .next t ∧ t.responses = s.responses ++ [rsp] ∧ statusOf rsp = status

/-- `CRC.INIT` completes. -/
theorem alwaysAnswers_ok : AlwaysAnswers (encode .crcInit) 0x00#8 := fun _ _ h =>
  ⟨_, _, step_crcInit h, rfl, statusOf_rspWord .ok 0⟩

/-- The opcode 0 is unassigned. -/
theorem alwaysAnswers_illegal : AlwaysAnswers 0#72 0x01#8 := fun _ _ h =>
  ⟨_, _, step_of_decode_error h (decode_of_unassigned rfl), rfl, statusOf_rspWord (.fault .illegal) 0⟩

/-- `MWF.DEC` at version 0. -/
theorem alwaysAnswers_fveVersion : AlwaysAnswers (cmdWord 0x10#8 (0#32 ++ 0#32)) 0x10#8 := fun _ _ h =>
  ⟨_, _, step_of_mwfDec_cmdWord h, rfl, statusOf_rspWord (.fault .fveVersion) 0⟩

/-- `MWF.ENC` with no bits per sample. -/
theorem alwaysAnswers_fveRange : AlwaysAnswers (encode (.mwfEnc 0 0 0 0 0 0)) 0x13#8 := fun _ _ h =>
  ⟨_, _, (step_of_decode_ok h (decode_encode_of_lane rfl rfl rfl)).trans (exec_mwfEnc 0 0 0 0 0 0 _), rfl,
    statusOf_rspWord (.fault .fveRange) 0⟩

/-- Settles O51: the table by its rows, the fault codes by the command that may raise them, and a word for each reachable status. -/
theorem statusCodesAreProducedAsTabled : Obligations.StatusCodesAreProducedAsTabled := by
  refine ⟨⟨rfl, rfl, rfl, rfl, rfl, rfl, rfl⟩, fun code => by cases code <;> rfl, fun s t cmd rest rsp h hstep hrsp => ?_,
    ?_⟩
  · have houtcome := step_oneResponse h
    rw [hstep] at houtcome
    rcases houtcome.added hrsp with ⟨data, rfl⟩ | ⟨code, hcode, rfl, -⟩
    · exact .inl (statusOf_rspWord .ok data)
    · rw [statusOf_rspWord]
      exact .inr (status_of_wordMayRaise hcode)
  · simp only [List.forall_mem_cons]
    exact ⟨⟨_, alwaysAnswers_ok⟩, ⟨_, alwaysAnswers_illegal⟩, ⟨_, alwaysAnswers_fveVersion⟩,
      ⟨_, alwaysAnswers_fveRange⟩, nofun⟩

/-! ### ILLEGAL -/

/-- The answer is ILLEGAL exactly when the decoder refuses the word: no command raises ILLEGAL once it is decoded. -/
theorem step_illegal_iff {s : State} {cmd : CmdWord} {rest : List PortEvent} (h : s.inputs = .command cmd :: rest) :
    step s = .next (emit (rspWord (.fault .illegal) 0) { s with inputs := rest }) ↔ ∃ e, decode cmd = .error e := by
  refine ⟨fun hstep => ?_, fun ⟨e, hd⟩ => step_of_decode_error h hd⟩
  have houtcome := step_oneResponse h
  rw [hstep] at houtcome
  rcases houtcome.added rfl with ⟨data, hok⟩ | ⟨code, hcode, hfault, -⟩
  · exact absurd (number_eq_of_rspWord_eq hok) (by decide)
  · have hnumber := number_eq_of_rspWord_eq hfault
    rcases hcode with ⟨hrefused, -⟩ | ⟨i, -, ⟨-, rfl⟩ | ⟨-, rfl⟩⟩
    · exact hrefused
    · exact absurd hnumber (by decide)
    · exact absurd hnumber (by decide)

theorem refused_iff_of_check {cmd : CmdWord} {p : Prop} [Decidable p] {reason : DecodeRefusal} {i : Instr}
    (hd : decode cmd = if p then .error reason else .ok i) : (∃ e, decode cmd = .error e) ↔ p := by
  rw [hd]
  split_ifs with hp
  · exact iff_of_true ⟨_, rfl⟩ hp
  · exact iff_of_false (fun ⟨_, he⟩ => nomatch he) hp

theorem refused_iff_of_rev {cmd : CmdWord} (hop : opOf cmd = 0x08#8) :
    (∃ e, decode cmd = .error e) ↔ cmd.extractLsb' 38 26 ≠ 0#26 ∨ 32 < (cmd.extractLsb' 32 6).toNat := by
  rw [decode_rev hop]
  split_ifs with hmbz hcount
  · exact iff_of_true ⟨_, rfl⟩ (.inl hmbz)
  · exact iff_of_false (fun ⟨_, he⟩ => nomatch he) (not_or.mpr ⟨hmbz, not_lt.mpr hcount⟩)
  · exact iff_of_true ⟨_, rfl⟩ (.inr (not_le.mp hcount))

/-- Settles O52: opcode by opcode, the decoder's refusals are the listed forms. -/
theorem illegalIsAnsweredExactlyToNonCommands : Obligations.IllegalIsAnsweredExactlyToNonCommands := by
  intro s cmd rest h
  refine (step_illegal_iff h).trans ?_
  cases hassigned : opcodeOf (opOf cmd) with
  | none => exact iff_of_true ⟨_, decode_of_unassigned hassigned⟩ (.inl ((opcodeOf_eq_none_iff _).mp hassigned))
  | some op =>
    have hop : cmd.extractLsb' 64 8 = op.code := (opcodeOf_eq_some_iff _ _).mp hassigned
    cases op with
    | crcInit => simp [refused_iff_of_check (decode_crcInit hop), hop, Opcode.code]
    | crcByte => simp [refused_iff_of_check (decode_crcByte hop), hop, Opcode.code]
    | crcRead => simp [refused_iff_of_check (decode_crcRead hop), hop, Opcode.code]
    | crcSum => simp [refused_iff_of_check (decode_crcSum hop), hop, Opcode.code]
    | rev => simp [refused_iff_of_rev hop, hop, Opcode.code]
    | mwfDec => simp [decode_mwfDec hop, hop, Opcode.code]
    | mwfEnc => simp [refused_iff_of_check (decode_mwfEnc hop), hop, Opcode.code]

end Sys2Proof.Machine
end

section
/-! SUPPORT and PROOF. Reset beside `CRC.INIT` (70_reset_and_hazards.md R99). -/

namespace Sys2Proof.Machine

/-- `CRC.INIT` is the effect of a reset, to which the one response of a command is added (70_reset_and_hazards.md R99). -/
theorem exec_crcInit_eq_emit_resetBlock (s : State) :
    exec .crcInit s = .next (emit (rspWord .ok 0) (resetBlock s)) := rfl

/-- A response is all that `emit` adds: without it the state is the one before. -/
theorem emit_with_responses (rsp : RspWord) (s : State) : { emit rsp s with responses := s.responses } = s := rfl

/-- Settles O8: `CRC.INIT` resets the block and emits, so without its response it leaves the state of the reset event. -/
theorem resetEventLoadsInitialRemainder : Obligations.ResetEventLoadsInitialRemainder := by
  intro s rest h
  have hreset : step s = .next (resetBlock { s with inputs := rest }) := step_of_reset h
  have hinit := exec_crcInit_eq_emit_resetBlock { s with inputs := rest }
  exact ⟨hreset, _, hinit, emit_with_responses (rspWord .ok 0) (resetBlock { s with inputs := rest })⟩

end Sys2Proof.Machine
end

section
/-! SUPPORT and PROOF. Commands and their words (30_encoding.md section 6): the operand lane and the operands determine each other,
so the decoder and the encoder are inverse. -/

namespace Sys2Proof

/-! ### From a command to its word -/

/-- The operands are read back from the slots of the lane they were put in (30_encoding.md R34, R44). -/
theorem operandsOf_encodeArg (i : Instr) : operandsOf i.opcode (encodeArg i) = i := by
  cases i with
  | crcInit => rfl
  | crcByte d =>
    have hbyte : (encodeArg (.crcByte d)).extractLsb' 0 8 = d := (slice_append_low (by decide)).trans slice_all
    exact congrArg Instr.crcByte hbyte
  | crcRead => rfl
  | crcSum => rfl
  | rev n value =>
    rw [Instr.opcode, operandsOf, Instr.rev.injEq]
    refine ⟨?_, (slice_append_low (by decide)).trans slice_all⟩
    refine (slice_append_high (by decide)).trans ?_
    exact (slice_append_low (by decide)).trans slice_all
  | mwfDec version word =>
    rw [Instr.opcode, operandsOf, Instr.mwfDec.injEq]
    exact ⟨(slice_append_high (by decide)).trans slice_all, (slice_append_low (by decide)).trans slice_all⟩
  | mwfEnc codec8 channels8 rate24 align8 bps8 ignored =>
    rw [Instr.opcode, operandsOf, Instr.mwfEnc.injEq]
    refine ⟨(slice_append_low (by decide)).trans slice_all, ?_, ?_, ?_, ?_, ?_⟩
    all_goals
      repeat refine (slice_append_high (by decide)).trans ?_
      exact (slice_append_low (by decide)).trans slice_all

/-- The must-be-zero bits of a command's lane are zero (30_encoding.md R37, R44). -/
theorem encodeArg_mbz (i : Instr) : encodeArg i &&& mbzMask i.opcode = 0 := by
  cases i with
  | crcInit => rfl
  | crcByte d =>
    exact (and_mask_eq_zero_iff _ (mbzMask .crcByte) 8 56 (by decide)).mpr ((slice_append_high (by decide)).trans slice_all)
  | crcRead => rfl
  | crcSum => rfl
  | rev n value =>
    refine (and_mask_eq_zero_iff _ (mbzMask .rev) 38 26 (by decide)).mpr ?_
    repeat refine (slice_append_high (by decide)).trans ?_
    exact slice_all
  | mwfDec version word => exact BitVec.and_zero
  | mwfEnc codec8 channels8 rate24 align8 bps8 ignored =>
    refine (and_mask_eq_zero_iff _ (mbzMask .mwfEnc) 58 6 (by decide)).mpr ?_
    repeat refine (slice_append_high (by decide)).trans ?_
    exact slice_all

/-- The decoder on the word of any command: all but the count of `REV` is legal by construction. -/
theorem decode_encode (i : Instr) : decode (encode i) = if i.wellFormed = true then .ok i else .error .revCount := by
  have hop : opcodeOf (opOf (encode i)) = some i.opcode := (Laws.EncodedOpcode.of_encode i).2
  have harg : argOf (encode i) = encodeArg i := argOf_cmdWord _ _
  rw [decode_of_opcode hop, harg, operandsOf_encodeArg, if_neg (not_not.mpr (encodeArg_mbz i))]

theorem decode_encode_of_wellFormed {i : Instr} (hwf : i.wellFormed = true) : decode (encode i) = .ok i := by
  rw [decode_encode, if_pos hwf]

/-- Settles O11: the word of a command passes the decoder's checks, and its slots hold the operands. -/
theorem decodeOfEncodeIsIdentity : Obligations.DecodeOfEncodeIsIdentity := fun _ => decode_encode_of_wellFormed

/-! ### From a word to its command -/

/-- A lane whose must-be-zero bits are zero is the lane of the operands it holds: the slots and those bits tile it. -/
theorem encodeArg_operandsOf {op : Opcode} {arg : Lane} (hmbz : arg &&& mbzMask op = 0) :
    encodeArg (operandsOf op arg) = arg := by
  have of_all_mbz (hmask : arg &&& BitVec.allOnes 64 = 0) : 0 = arg := by rw [← hmask, BitVec.and_allOnes]
  cases op with
  | crcInit => exact of_all_mbz hmbz
  | crcByte =>
    have htop : arg.extractLsb' 8 56 = 0 := (and_mask_eq_zero_iff arg (mbzMask .crcByte) 8 56 (by decide)).mp hmbz
    rw [operandsOf, encodeArg, ← htop, slice_glue arg 0 8 56 8 rfl, slice_all]
  | crcRead => exact of_all_mbz hmbz
  | crcSum => exact of_all_mbz hmbz
  | rev =>
    have htop : arg.extractLsb' 38 26 = 0 := (and_mask_eq_zero_iff arg (mbzMask .rev) 38 26 (by decide)).mp hmbz
    rw [operandsOf, encodeArg, ← htop, slice_glue arg 32 6 26 38 rfl, slice_glue arg 0 32 32 32 rfl, slice_all]
  | mwfDec => rw [operandsOf, encodeArg, slice_glue arg 0 32 32 32 rfl, slice_all]
  | mwfEnc =>
    have htop : arg.extractLsb' 58 6 = 0 := (and_mask_eq_zero_iff arg (mbzMask .mwfEnc) 58 6 (by decide)).mp hmbz
    rw [operandsOf, encodeArg, ← htop, slice_glue arg 56 2 6 58 rfl, slice_glue arg 48 8 8 56 rfl,
      slice_glue arg 40 8 16 48 rfl, slice_glue arg 16 24 24 40 rfl, slice_glue arg 8 8 48 16 rfl,
      slice_glue arg 0 8 56 8 rfl, slice_all]

/-- Settles O12: an accepted word has the command's opcode number and, its must-be-zero bits being zero, the command's lane. -/
theorem encodeOfDecodeIsIdentity : Obligations.EncodeOfDecodeIsIdentity := by
  intro cmd i hd
  obtain ⟨op, hop, hmbz, hwf, rfl⟩ := reason_of_decode hd
  refine ⟨?_, hwf⟩
  calc encode (operandsOf op (argOf cmd))
    _ = cmdWord op.code (argOf cmd) := by rw [encode, opcode_operandsOf, encodeArg_operandsOf hmbz]
    _ = cmdWord (opOf cmd) (argOf cmd) := by rw [(opcodeOf_eq_some_iff _ _).mp hop]
    _ = cmd := cmdWord_opOf_argOf cmd

/-- Settles O14: one word per command and per refusal, evaluated. -/
theorem sampleWordsDecode : Obligations.SampleWordsDecode :=
  ⟨rfl, rfl, rfl, rfl, rfl, rfl, rfl, rfl, rfl, rfl⟩

end Sys2Proof
end

section
/-! SUPPORT and PROOF. The lines of the seven commands and `.word` (30_encoding.md R45): each assembles to the word of its command
when its operands fit, and to nothing when one does not. -/

namespace Sys2Proof.Machine

/-! ### `crc.byte` and `rev` -/

theorem assemble_crcByte_of_le {d : Nat} (h : d ≤ 255) :
    assemble (.crcByte d) = some [encode (.crcByte (BitVec.ofNat 8 d))] := by
  rw [assemble, asmByte, if_pos h, Option.map_some]

theorem assemble_crcByte_of_gt {d : Nat} (h : 255 < d) : assemble (.crcByte d) = none := by
  rw [assemble, asmByte, if_neg (not_le.mpr h), Option.map_none]

theorem assemble_rev_of_inRange {n value : Nat} (hn : n ≤ 63) (hvalue : value < 2 ^ 32) :
    assemble (.rev n value) = some [encode (.rev (BitVec.ofNat 6 n) (BitVec.ofNat 32 value))] := by
  rw [assemble, if_pos ⟨hn, hvalue⟩]

theorem assemble_rev_of_not_inRange {n value : Nat} (h : 63 < n ∨ 2 ^ 32 ≤ value) : assemble (.rev n value) = none := by
  rw [assemble, if_neg (by omega)]

/-- A count that fits its 6-bit slot is legal up to 32. -/
theorem decode_encode_rev_ofNat {n : Nat} (hn : n ≤ 63) (value : BitVec 32) :
    decode (encode (.rev (BitVec.ofNat 6 n) value)) =
      if n ≤ 32 then .ok (.rev (BitVec.ofNat 6 n) value) else .error .revCount := by
  have hcount : (BitVec.ofNat 6 n).toNat = n := Nat.mod_eq_of_lt (Nat.lt_succ_of_le hn)
  simp only [decode_encode, Instr.wellFormed, decide_eq_true_eq, hcount]

/-! ### `mwf.dec` and `mwf.enc` -/

theorem assemble_mwfDec_of_inRange {version : Int} {word : Nat} (hlow : -2 ^ 31 ≤ version) (hhigh : version < 2 ^ 31)
    (hword : word < 2 ^ 32) :
    assemble (.mwfDec version word) = some [encode (.mwfDec (BitVec.ofInt 32 version) (BitVec.ofNat 32 word))] := by
  rw [assemble, if_pos ⟨hlow, hhigh, hword⟩]

theorem assemble_mwfDec_of_not_inRange {version : Int} {word : Nat}
    (h : version < -2 ^ 31 ∨ 2 ^ 31 ≤ version ∨ 2 ^ 32 ≤ word) : assemble (.mwfDec version word) = none := by
  rw [assemble, if_neg (by omega)]

/-- A version in the signed 32-bit range is kept by its slot (30_encoding.md R36). -/
theorem signedVersion_ofInt {version : Int} (hlow : -2 ^ 31 ≤ version) (hhigh : version < 2 ^ 31) :
    signedVersion (BitVec.ofInt 32 version) = version :=
  BitVec.toInt_ofInt_eq_self (by decide) hlow hhigh

theorem assemble_mwfEnc_of_inRange {c h r a b : Nat} (hc : c < 2 ^ 8) (hh : h < 2 ^ 8) (hr : r < 2 ^ 24) (ha : a < 2 ^ 8)
    (hb : b < 2 ^ 8) :
    assemble (.mwfEnc c h r a b) =
      some [encode (.mwfEnc (BitVec.ofNat 8 c) (BitVec.ofNat 8 h) (BitVec.ofNat 24 r) (BitVec.ofNat 8 a)
        (BitVec.ofNat 8 b) 0)] := by
  rw [assemble, asmEnc, if_pos ⟨hc, hh, hr, ha, hb⟩, Option.map_some]

theorem assemble_mwfEnc_of_not_inRange {c h r a b : Nat}
    (hout : 2 ^ 8 ≤ c ∨ 2 ^ 8 ≤ h ∨ 2 ^ 24 ≤ r ∨ 2 ^ 8 ≤ a ∨ 2 ^ 8 ≤ b) : assemble (.mwfEnc c h r a b) = none := by
  rw [assemble, asmEnc, if_neg (by omega), Option.map_none]

/-! ### `.word` -/

theorem assemble_rawWord (w : Nat) : assemble (.rawWord w) = if w < 2 ^ 72 then some [BitVec.ofNat 72 w] else none := rfl

/-- Settles O15: in range a line is the word of its command, which decodes to it (O11), and out of range it is refused. -/
theorem assembledCommandsDecodeAsWritten : Obligations.AssembledCommandsDecodeAsWritten := by
  refine ⟨⟨_, rfl, decode_encode_crcInit⟩, ⟨_, rfl, decode_encode_crcRead⟩, ⟨_, rfl, decode_encode_crcSum⟩,
    fun d hd => ⟨_, assemble_crcByte_of_le hd, decode_encode_crcByte _⟩, fun d => assemble_crcByte_of_gt,
    fun n value hn hvalue => ⟨_, assemble_rev_of_inRange hn hvalue, decode_encode_rev_ofNat hn _⟩,
    fun n value => assemble_rev_of_not_inRange,
    fun version word hlow hhigh hword => ⟨_, _, assemble_mwfDec_of_inRange hlow hhigh hword,
      decode_encode_of_wellFormed rfl, signedVersion_ofInt hlow hhigh⟩,
    fun version word => assemble_mwfDec_of_not_inRange,
    fun c h r a b hc hh hr ha hb => ⟨_, assemble_mwfEnc_of_inRange hc hh hr ha hb, decode_encode_of_wellFormed rfl⟩,
    fun c h r a b => assemble_mwfEnc_of_not_inRange, fun w hw => ?_, fun w hw => ?_⟩
  · rw [assemble_rawWord, if_pos hw]
  · rw [assemble_rawWord, if_neg (not_lt.mpr hw)]

end Sys2Proof.Machine
end

section
/-! SUPPORT and PROOF. The invariant of the responses (30_encoding.md R32; 60_exceptions.md R83, R84): a completed command answers
`OK`, and a fault is one of the three reachable codes, with no data. -/

namespace Sys2Proof.Machine

/-- Settles O10: the status is the high part of the word and the data the low part. -/
theorem responseWordHoldsStatusAndData : Obligations.ResponseWordHoldsStatusAndData := fun status data =>
  ⟨statusOf_rspWord status data, dataOf_rspWord status data⟩

theorem responseLegal_ok (data : Lane) : ResponseLegal (rspWord .ok data) := .inl (statusOf_rspWord .ok data)

/-- A fault code that some command word can raise makes a legal response. -/
theorem responseLegal_of_wordMayRaise {cmd : CmdWord} {code : FaultCode} (h : WordMayRaise cmd code) :
    ResponseLegal (rspWord (.fault code) 0) := by
  refine .inr ⟨dataOf_rspWord _ _, ?_⟩
  rw [statusOf_rspWord]
  rcases h with ⟨-, rfl⟩ | ⟨-, -, ⟨-, rfl⟩ | ⟨-, rfl⟩⟩
  · exact .inl rfl
  · exact .inr (.inl rfl)
  · exact .inr (.inr rfl)

theorem ResponsesLegal.emit {s : State} {rsp : RspWord} (hs : ResponsesLegal s) (hrsp : ResponseLegal rsp) :
    ResponsesLegal (emit rsp s) := by
  rw [ResponsesLegal, emit_responses, List.forall_mem_append, List.forall_mem_singleton]
  exact ⟨hs, hrsp⟩

/-- Either outcome of a command word adds a legal response. -/
theorem OneResponse.keeps_responsesLegal {cmd : CmdWord} {s t : State} (h : OneResponse (WordMayRaise cmd) s (.next t))
    (hs : ResponsesLegal s) : ResponsesLegal t := by
  cases h with
  | completed v data => exact ResponsesLegal.emit (s := writeRem v s) hs (responseLegal_ok data)
  | faulted hcode => exact hs.emit (responseLegal_of_wordMayRaise hcode)

/-- Settles O53: idling and a reset add no response, and a command word adds a legal one. -/
theorem everyStepKeepsResponsesLegal : Obligations.EveryStepKeepsResponsesLegal := by
  intro s t hs hstep
  cases h : s.inputs with
  | nil =>
    obtain rfl := Host.Outcome.next.inj ((step_of_idle h).symm.trans hstep)
    exact hs
  | cons e rest =>
    cases e with
    | reset =>
      obtain rfl := Host.Outcome.next.inj ((step_of_reset h).symm.trans hstep)
      exact hs
    | command cmd =>
      have houtcome := step_oneResponse h
      rw [hstep] at houtcome
      exact houtcome.keeps_responsesLegal hs

/-- Settles O54: nothing has been emitted at reset (log 1). -/
theorem resetResponsesAreLegal : Obligations.ResetResponsesAreLegal := List.forall_mem_nil ResponseLegal

end Sys2Proof.Machine
end

section
/-! SUPPORT and PROOF. Steps and runs (70_reset_and_hazards.md section 6; 20_memory.md section 4): each event is one step, which adds
one response for a command and none for a reset. -/

namespace Sys2Proof.Machine

/-- Settles O9: nothing is accepted. -/
theorem idleStepHoldsEverything : Obligations.IdleStepHoldsEverything := fun _ => step_of_idle

/-- Settles O55: the accepted word is decoded and executed. -/
theorem stepRunsTheDecodedCommand : Obligations.StepRunsTheDecodedCommand := fun _ _ _ _ => step_of_decode_ok

/-- A step takes the next event and adds the responses due for it. -/
theorem step_adds_due_responses {s : State} {e : PortEvent} {rest : List PortEvent} (h : s.inputs = e :: rest) :
    ∃ t later, step s = .next t ∧ t.inputs = rest ∧ t.responses = s.responses ++ later ∧
      later.length + commandCount rest = commandCount (e :: rest) := by
  cases e with
  | reset => exact ⟨_, [], step_of_reset h, rfl, (List.append_nil _).symm, Nat.zero_add _⟩
  | command cmd =>
    obtain ⟨t, status, data, hstep, hinputs, hresponses⟩ := everyCommandGetsExactlyOneResponse s cmd rest h
    exact ⟨t, [rspWord status data], hstep, hinputs, hresponses, Nat.add_comm _ _⟩

/-- A run over the first events takes them, adds the responses due for them, and goes on from there with the events `after`. -/
theorem runSteps_adds_due_responses (before : List PortEvent) {after : List PortEvent} {s : State}
    (h : s.inputs = before ++ after) :
    ∃ t later, (∀ n, runSteps (before.length + n) s = runSteps n t) ∧ t.inputs = after ∧
      t.responses = s.responses ++ later ∧ later.length + commandCount after = commandCount s.inputs := by
  induction before generalizing s with
  | nil =>
    refine ⟨s, [], fun n => by rw [List.length_nil, Nat.zero_add], h, (List.append_nil _).symm, ?_⟩
    rw [List.length_nil, Nat.zero_add, h, List.nil_append]
  | cons e before ih =>
    obtain ⟨u, first, hstep, hinputs, hfirst, hdue⟩ := step_adds_due_responses h
    obtain ⟨t, later, hrun, hafter, hlater, hdue'⟩ := ih hinputs
    refine ⟨t, first ++ later, fun n => ?_, hafter, ?_, ?_⟩
    · rw [List.length_cons, Nat.add_right_comm, runSteps_succ hstep, hrun]
    · rw [hlater, hfirst, List.append_assoc]
    · rw [hinputs] at hdue'
      rw [h, List.length_append, Nat.add_assoc, hdue']
      exact hdue

/-- A run over all the presented events ends with none left and one response added for each command. -/
theorem runSteps_all_events (s : State) :
    ∃ t later, runSteps s.inputs.length s = .next t ∧ t.inputs = [] ∧ t.responses = s.responses ++ later ∧
      later.length = commandCount s.inputs := by
  obtain ⟨t, later, hrun, hinputs, hresponses, hdue⟩ := runSteps_adds_due_responses s.inputs (List.append_nil _).symm
  exact ⟨t, later, hrun 0, hinputs, hresponses, hdue⟩

/-- Settles O56: a run splits at any event into the run up to it and the run over the rest, each of which only appends. -/
theorem runAnswersEveryCommandInOrder : Obligations.RunAnswersEveryCommandInOrder := by
  refine ⟨runSteps_all_events, fun s before after h => ?_⟩
  obtain ⟨t, -, hrun, rfl, -, -⟩ := runSteps_adds_due_responses before h
  obtain ⟨u, later, hrest, -, hresponses, hcount⟩ := runSteps_all_events t
  exact ⟨t, u, later, hrun 0, rfl, (hrun _).trans hrest, hresponses, hcount⟩

/-- Settles O57: every event keeps `HoldsMessage`, and `absorbed` follows the events. -/
theorem remHoldsExactlyTheAbsorbedBytes : Obligations.RemHoldsExactlyTheAbsorbedBytes := by
  intro s message hrem
  obtain ⟨t, hrun, -, ht⟩ := runSteps_keeps_holdsMessage s.inputs rfl hrem
  exact ⟨t, hrun, ht⟩

end Sys2Proof.Machine
end

section
/-! SUPPORT and PROOF. The commands as transitions of any state: which of them read and write `REM` (10_state.md section 1), what the
CRC commands, `REV` and `MWF.ENC` answer, and their frames. -/

namespace Sys2Proof.Machine

/-! ### `REM` and the commands -/

/-- Settles O7: the initial remainder of CRC16B. -/
theorem resetStateHoldsInitialRemainder : Obligations.ResetStateHoldsInitialRemainder := rfl

/-- In every state the command has the same response and, if it is `CRC.INIT`, leaves the same `REM`. -/
def IgnoresRem (i : Instr) : Prop :=
  ∃ rsp, ∀ s, ∃ v, exec i s = .next (emit rsp (writeRem v s)) ∧ (i.opcode = .crcInit → v = 0xFFFF)

theorem ignoresRem_of_pure {i : Instr} (hi : i.opcode.code ∈ [0x08#8, 0x10#8, 0x11#8]) : IgnoresRem i := by
  obtain ⟨rsp, hexec⟩ := exec_pure_emits hi
  refine ⟨rsp, fun s => ⟨s.rem, hexec s, fun hinit => ?_⟩⟩
  rw [hinit] at hi
  exact absurd hi (by decide)

/-- Only `CRC.BYTE`, `CRC.READ` and `CRC.SUM` read `REM`. -/
theorem ignoresRem_of_not_reading {i : Instr} (hbyte : i.opcode ≠ .crcByte) (hread : i.opcode ≠ .crcRead)
    (hsum : i.opcode ≠ .crcSum) : IgnoresRem i := by
  cases i with
  | crcInit => exact ⟨_, fun s => ⟨_, rfl, fun _ => rfl⟩⟩
  | crcByte d => exact absurd rfl hbyte
  | crcRead => exact absurd rfl hread
  | crcSum => exact absurd rfl hsum
  | rev n value => exact ignoresRem_of_pure (show Opcode.rev.code ∈ _ by decide)
  | mwfDec version word => exact ignoresRem_of_pure (show Opcode.mwfDec.code ∈ _ by decide)
  | mwfEnc codec8 channels8 rate24 align8 bps8 ignored =>
    exact ignoresRem_of_pure (show Opcode.mwfEnc.code ∈ _ by decide)

/-- Settles O6: `exec_other_emits` is the frame of the commands that do not write `REM`, `IgnoresRem` the independence of those that
do not read it. -/
theorem remIsReadAndWrittenByCrcCommandsOnly : Obligations.RemIsReadAndWrittenByCrcCommandsOnly := by
  intro i s
  obtain ⟨v, status, data, hexec⟩ := exec_emits i s
  refine ⟨_, hexec, rfl, ⟨_, rfl⟩, fun hinit hbyte => ?_, fun hbyte hread hsum r => ?_⟩
  · obtain ⟨rsp, hframe⟩ := exec_other_emits hinit hbyte s
    exact congrArg (·.rem) (Host.Outcome.next.inj (hexec.symm.trans hframe))
  · obtain ⟨rsp, hignores⟩ := ignoresRem_of_not_reading hbyte hread hsum
    obtain ⟨w, hw, hwinit⟩ := hignores s
    obtain ⟨w', hw', hwinit'⟩ := hignores { s with rem := r }
    rw [Host.Outcome.next.inj (hexec.symm.trans hw)]
    exact ⟨_, hw', rfl, fun hinit => (hwinit' hinit).trans (hwinit hinit).symm⟩

/-- Settles O27: each writes `REM` and answers `OK`. -/
theorem crcInitAndByteWriteRem : Obligations.CrcInitAndByteWriteRem := fun _ _ => ⟨rfl, rfl⟩

/-! ### `CRC.READ` and `CRC.SUM` -/

/-- The lane of `CRC.SUM` is the CRC with zeros above it. -/
theorem sumLane_eq_append (c : BitVec 16) : sumLane c = 0#48 ++ c := by
  apply BitVec.eq_of_toNat_eq
  rw [toNat_sumLane, BitVec.toNat_append, BitVec.toNat_ofNat, Nat.zero_mod, Nat.zero_shiftLeft, Nat.zero_or]

/-- The number `CRC.READ` answers: R54 at CRC16B, zero-extended. -/
theorem toNat_readLane (rem : BitVec 16) : ((crcFinish crc16b rem).setWidth 64).toNat = reverseBits rem.toNat 16 ^^^ 0xFFFF :=
  (BitVec.toNat_setWidth_of_le (by decide)).trans (crcFinish_toNat crc16b rem)

/-- Settles O28: both answer from the finished remainder, and only append a response. -/
theorem crcReadAndSumAnswerTheCrc : Obligations.CrcReadAndSumAnswerTheCrc := by
  intro s
  refine ⟨⟨(remCrc s).setWidth 64, toNat_readLane s.rem, rfl⟩, sumLane (remCrc s), ?_, ?_, ?_, rfl⟩
  · rw [sumLane_eq_append]
    exact slice_append_low (by decide)
  · rw [sumLane_eq_append]
    exact slice_append_low (by decide)
  · rw [sumLane_eq_append]
    exact (slice_append_high (by decide)).trans slice_all

/-! ### `REV` -/

theorem exec_rev_of_gt {n : BitVec 6} (h : 32 < n.toNat) (value : BitVec 32) (s : State) :
    exec (.rev n value) s = .next (emit (rspWord (.fault .illegal) 0) s) := by
  calc exec (.rev n value) s
    _ = answer _ s := execRev_eq_answer n value s
    _ = _ := by rw [if_pos h]; exact raise_eq_next _ s

/-- A reversal of up to 32 bits fits the response lane. -/
theorem toNat_reversedLane (value : Nat) {n : Nat} (h : n ≤ 32) :
    (BitVec.ofNat 64 (reverseBits value n)).toNat = reverseBits value n := by
  have hwidth : 2 ^ n ≤ 2 ^ 64 := Nat.pow_le_pow_right two_pos (h.trans (by decide))
  exact Nat.mod_eq_of_lt ((reverseBits_lt_two_pow value n).trans_le hwidth)

/-- Settles O19: on either side of the bound of R49. -/
theorem revAnswersTheReversedBits : Obligations.RevAnswersTheReversedBits := fun _ value s =>
  ⟨fun h => ⟨_, toNat_reversedLane value.toNat h, exec_rev_of_le h value s⟩, fun h => exec_rev_of_gt h value s⟩

/-! ### `MWF.ENC` -/

/-- The range check of R76 with every slot as a number. -/
theorem slotsInRange_iff_toNat (codec8 channels8 : BitVec 8) (rate24 : BitVec 24) (bps8 : BitVec 8) :
    SlotsInRange codec8 channels8 rate24 bps8 ↔
      codec8.toNat ≤ 3 ∧ channels8.toNat ≤ 7 ∧ rate24.toNat ≤ 262143 ∧ (bps8.toNat = 8 ∨ bps8.toNat = 16) := by
  rw [← rangeOk_iff]
  simp only [rangeOk, Bool.and_eq_true, Bool.or_eq_true, decide_eq_true_eq, and_assoc]

/-- The raw fields that stand in the encoding of slots in range. -/
def fieldsOfSlots (codec8 channels8 : BitVec 8) (rate24 : BitVec 24) (align8 bps8 : BitVec 8) : MwfFields :=
  ⟨codec8.setWidth 2, channels8.setWidth 3, rate24.setWidth 18, align8, if bps8.toNat = 8 then 0#1 else 1#1⟩

theorem encResult_eq_packWord {codec8 channels8 : BitVec 8} {rate24 : BitVec 24} {bps8 : BitVec 8} (align8 : BitVec 8)
    (h : SlotsInRange codec8 channels8 rate24 bps8) :
    encResult codec8 channels8 rate24 align8 bps8 =
      .ok ((packWord (fieldsOfSlots codec8 channels8 rate24 align8 bps8)).setWidth 64) := by
  have hrange := (rangeOk_iff _ _ _ _).mpr h
  have hraw : rawBit (if bps8.toNat = 8 then .eight else .sixteen) = if bps8.toNat = 8 then 0#1 else 1#1 := by
    split <;> rfl
  rw [fieldsOfSlots, ← hraw]
  simp only [encResult, waveFormatOf, if_pos hrange]
  rw [mwfEncode_of_some rfl, fieldsOfRecord]

theorem toNat_setWidth_of_lt {w m : Nat} {x : BitVec w} (h : x.toNat < 2 ^ m) : (x.setWidth m).toNat = x.toNat := by
  rw [BitVec.toNat_setWidth, Nat.mod_eq_of_lt h]

/-- Slots in range lose nothing in their fields, so the packed word is the sum of the shifted slots. -/
theorem toNat_packWord_fieldsOfSlots {codec8 channels8 : BitVec 8} {rate24 : BitVec 24} {bps8 : BitVec 8} (align8 : BitVec 8)
    (h : SlotsInRange codec8 channels8 rate24 bps8) :
    (packWord (fieldsOfSlots codec8 channels8 rate24 align8 bps8)).toNat =
      codec8.toNat + channels8.toNat * 2 ^ 2 + rate24.toNat * 2 ^ 5 + align8.toNat * 2 ^ 23
        + (if bps8.toNat = 8 then 0 else 1) * 2 ^ 31 := by
  obtain ⟨hcodec, hchannels, hrate, -⟩ := h
  have hcodec' : (codec8.setWidth 2).toNat = codec8.toNat := toNat_setWidth_of_lt (Nat.lt_succ_of_le hcodec)
  have hchannels' : (channels8.setWidth 3).toNat = channels8.toNat := toNat_setWidth_of_lt (Nat.lt_succ_of_le hchannels)
  have hrate' : (rate24.setWidth 18).toNat = rate24.toNat := toNat_setWidth_of_lt (Nat.lt_succ_of_le hrate)
  have hbit : (if bps8.toNat = 8 then 0#1 else 1#1).toNat = if bps8.toNat = 8 then 0 else 1 := by split <;> rfl
  rw [(packWord_eq_sum_and_xor _).1, fieldsOfSlots, hcodec', hchannels', hrate', hbit]

/-- Settles O44: in range the answer is the packed word, zero-extended, else `FVE_RANGE`; the ignored bits are not read. -/
theorem mwfEncPacksInRangeRecords : Obligations.MwfEncPacksInRangeRecords := by
  intro codec8 channels8 rate24 align8 bps8 ignored s
  rw [← slotsInRange_iff_toNat, exec_mwfEnc]
  constructor
  · intro hcodec hchannels hrate hbps
    have h := (slotsInRange_iff_toNat _ _ _ _).mpr ⟨hcodec, hchannels, hrate, hbps⟩
    rw [encResult_eq_packWord align8 h]
    exact ⟨_, (BitVec.toNat_setWidth_of_le (by decide)).trans (toNat_packWord_fieldsOfSlots align8 h), rfl⟩
  · intro h
    rw [encResult_of_not_inRange align8 h]
    rfl

end Sys2Proof.Machine
end
